-- ==== Sys2Proof/Word.lean ====
section
/-!
DEFINITION. The word types of the block. 00_scope.md rules R3 and R6 fix the widths; bit 0 is the least
significant bit of every one of them.
-/

namespace Sys2Proof

/-- A byte (R8). -/
abbrev Byte := BitVec 8

/-- A key word of the scheduler (R3, R97). -/
abbrev KeyWord := BitVec 16

/-- A subkey lane (R21): 20 bits. -/
abbrev Lane := BitVec 20

/-- A half block, a table entry, a 32-bit scalar (R3). -/
abbrev Word := BitVec 32

/-- The result of the field commands (R72, R75). -/
abbrev DWord := BitVec 64

end Sys2Proof
end

