-- ==== Sys2Proof/Machine/Bytes.lean ====
section
/-!
DEFINITION. Byte order (00_scope.md rule R8, 20_memory.md rule R34): everything wider than a byte is big-endian, the
byte at the lower offset being the more significant. Frames use the same order (30_encoding.md rule R51).
-/

namespace Sys2Proof.Machine

/-- Two bytes as one 16-bit value, the first more significant (R8 `be16`, R51 `u16`). -/
def join16 (b1 b0 : Byte) : BitVec 16 := b1 ++ b0

/-- Four bytes as one 32-bit value, the first most significant (R8 `be32`, R51 `u32`, `s32`). -/
def join32 (b3 b2 b1 b0 : Byte) : Word := b3 ++ b2 ++ b1 ++ b0

/-- The two bytes of a 16-bit value, most significant first (R51 `u16`). -/
def bytes16 (v : BitVec 16) : List Byte := [v.extractLsb' 8 8, v.extractLsb' 0 8]

/-- The four bytes of a 32-bit value, most significant first (R8 `bytes32`, R51 `u32`). -/
def bytes32 (v : Word) : List Byte :=
  [v.extractLsb' 24 8, v.extractLsb' 16 8, v.extractLsb' 8 8, v.extractLsb' 0 8]

/-- The eight bytes of a 64-bit value, most significant first (R51 `u64`). -/
def bytes64 (v : DWord) : List Byte := bytes32 (v.extractLsb' 32 32) ++ bytes32 (v.extractLsb' 0 32)

/-- The byte at offset `k` of a sequence. The rules read inside the sequence only, after its length was checked
(R103, R123, R130); the 0 beyond its end is never used (log entry 9). -/
def byteAt (s : List Byte) (k : Nat) : Byte := s.getD k 0

/-- `be16(s, k)` (R8). -/
def be16 (s : List Byte) (k : Nat) : BitVec 16 := join16 (byteAt s k) (byteAt s (k + 1))

/-- `be32(s, k)` (R8). -/
def be32 (s : List Byte) (k : Nat) : Word :=
  join32 (byteAt s k) (byteAt s (k + 1)) (byteAt s (k + 2)) (byteAt s (k + 3))

/-- The `bytes` field of R51: a `u32` length, then the data. -/
def lengthPrefixed (bs : List Byte) : List Byte := bytes32 (BitVec.ofNat 32 bs.length) ++ bs

/-- `s[i..j)` (R8). -/
def slice (s : List Byte) (i j : Nat) : List Byte := (s.drop i).take (j - i)

end Sys2Proof.Machine
end

