-- ==== Sys2Proof/Config.lean ====
section
/-!
DEFINITION. The build parameters of 00_scope.md rule R5, which the spec leaves open. They are not constants of the
model: a state carries them (log entry 1), so that a claim about every state is a claim about every legal value.
`NCTX` is not a field here: it is the number of contexts that a state holds.
No value of this hardware is a free value: every command that runs has its whole result from the rules.
-/

namespace Sys2Proof.Config

/-- The parameters of R5 other than `NCTX`. -/
structure Params where
  /-- `MAXLEVEL`: the largest level KEYSET accepts; `none` is `UNBOUNDED`. -/
  maxLevel : Option Nat
  /-- `SBOX_ROM`: the tables are constants, valid from reset (R92). -/
  sboxRom : Bool
  /-- `MAXBUF`: the longest byte sequence a frame may carry. -/
  maxBuf : Nat
  deriving DecidableEq, Repr

/-- The defaults of R5 for a single-instance model; `MAXBUF` is `2^31 - 1`. -/
def Params.default : Params := { maxLevel := none, sboxRom := false, maxBuf := 0x7fffffff }

/-- The default of `NCTX` (R5). -/
def defaultNctx : Nat := 1

/-- The ranges R5 gives the parameters. -/
abbrev Params.Legal (p : Params) : Prop :=
  (∀ n ∈ p.maxLevel, 1 ≤ n) ∧ 8 ≤ p.maxBuf ∧ p.maxBuf ≤ 0x7fffffff

/-- What a decoder has to know of the block: how many contexts there are and how long a byte sequence may be
(R55). -/
structure Limits where
  /-- `NCTX` -/
  nctx : Nat
  /-- `MAXBUF` -/
  maxBuf : Nat
  deriving DecidableEq, Repr

/-- The limits under the defaults of R5. -/
def Limits.default : Limits := { nctx := defaultNctx, maxBuf := Params.default.maxBuf }

end Sys2Proof.Config
end

