-- ==== Sys2Proof/Syntax.lean ====
section
/-!
DEFINITION. The abstract command set (30_encoding.md rule R50): one constructor per row of spec/opcode_table.json.
An operand has the width R53 gives it where the semantics uses it; `ctx` is the `u8` field as it stands, the three
signed operands are their 32 bits and are read as two's complement (R51).
-/

namespace Sys2Proof

/-- The twelve commands. -/
inductive Instr where
  /-- R72: multiply. -/
  | gfmul (a b : Byte) (m : BitVec 9)
  /-- R75: seventh power. -/
  | gfexp7 (b : Byte) (m : BitVec 9)
  /-- R82: permute 32 bits. -/
  | perm32 (x : Word)
  /-- R90: make the tables valid. -/
  | sbinit
  /-- R91: read table `t`, entry `i`. -/
  | sbrd (t : BitVec 2) (i : BitVec 10)
  /-- R104: construct a cipher instance in a context; `level` is signed. -/
  | keyset (ctx : Byte) (level : Word) (key : List Byte)
  /-- R115: one application of the round function. -/
  | roundf (p : Word) (sk0 sk1 sk2 : Lane)
  /-- R123: encrypt one block. -/
  | enc (ctx : Byte) (data : List Byte)
  /-- R124: decrypt one block. -/
  | dec (ctx : Byte) (data : List Byte)
  /-- R132: decrypt the range `start` (the spec's `from`) to `stop` (`to`) of a buffer; both are signed. -/
  | decrng (ctx : Byte) (start stop : Word) (buf : List Byte)
  /-- R133: decrypt a whole buffer. -/
  | decall (ctx : Byte) (buf : List Byte)
  /-- R140: read the status of the table set and of one context. -/
  | stat (ctx : Byte)
  deriving DecidableEq, Repr

end Sys2Proof
end

