-- ==== Sys2Proof/WellFormed.lean ====
section
/-!
DEFINITION. Which commands a well-formed frame can carry (30_encoding.md rule R55): the context exists and the byte
sequence is no longer than `MAXBUF`. Every other operand is bounded by its type.
-/

namespace Sys2Proof

/-- `ctx < NCTX` (R53, R55). -/
def contextExists (lim : Config.Limits) (ctx : Byte) : Bool := decide (ctx.toNat < lim.nctx)

/-- `N <= MAXBUF` (R51, R55). -/
def bytesFit (lim : Config.Limits) (bs : List Byte) : Bool := decide (bs.length ≤ lim.maxBuf)

/-- The operand checks of R55, per command. -/
def Instr.wellFormed (lim : Config.Limits) : Instr → Bool
  | .gfmul _ _ _ => true
  | .gfexp7 _ _ => true
  | .perm32 _ => true
  | .sbinit => true
  | .sbrd _ _ => true
  | .keyset ctx _ key => contextExists lim ctx && bytesFit lim key
  | .roundf _ _ _ _ => true
  | .enc ctx data => contextExists lim ctx && bytesFit lim data
  | .dec ctx data => contextExists lim ctx && bytesFit lim data
  | .decrng ctx _ _ buf => contextExists lim ctx && bytesFit lim buf
  | .decall ctx buf => contextExists lim ctx && bytesFit lim buf
  | .stat ctx => contextExists lim ctx

end Sys2Proof
end

