-- ==== Sys2Proof/Decode.lean ====
section
/-!
DEFINITION. Frames (30_encoding.md rules R51 to R57): the decoder, total on any byte sequence and rejecting by name,
and the encoder. The name of a rejection is the model's: a requester sees `IllegalCommand` for each (R55, R156).
-/

namespace Sys2Proof

open Machine

/-- Why a frame is malformed (R55). -/
inductive DecodeError where
  /-- The first byte is no command (R54). -/
  | reservedOpcode
  /-- The frame is shorter or longer than R53 gives for its opcode and its length field. -/
  | wrongLength
  /-- A must-be-zero bit of R53 is one. -/
  | mustBeZero
  /-- `ctx` is `NCTX` or more. -/
  | noSuchContext
  /-- The length field exceeds `MAXBUF`. -/
  | bytesTooLong
  deriving DecidableEq, Repr

/-- A field of `w` bits of which the low `k` are the value and the others must be zero (R53). -/
def narrow {w : Nat} (k : Nat) (v : BitVec w) : Except DecodeError (BitVec k) :=
  if v >>> k = 0#w then .ok (v.setWidth k) else .error .mustBeZero

/-- A `ctx` field (R55). -/
def decodeCtx (lim : Config.Limits) (ctx : Byte) : Except DecodeError Byte :=
  if contextExists lim ctx then .ok ctx else .error .noSuchContext

/-- The `bytes` field that ends a frame: a `u32` length and exactly that many bytes (R51, R55). -/
def decodeBytes (lim : Config.Limits) : List Byte → Except DecodeError (List Byte)
  | n3 :: n2 :: n1 :: n0 :: data =>
    if lim.maxBuf < (join32 n3 n2 n1 n0).toNat then .error .bytesTooLong
    else if data.length = (join32 n3 n2 n1 n0).toNat then .ok data
    else .error .wrongLength
  | _ => .error .wrongLength

/-- GFMUL, opcode `0x01` (R53). -/
def decodeGfmul : List Byte → Except DecodeError Instr
  | [a, b, m1, m0] => do
    let m ← narrow 9 (join16 m1 m0)
    return .gfmul a b m
  | _ => .error .wrongLength

/-- GFEXP7, opcode `0x02` (R53). -/
def decodeGfexp7 : List Byte → Except DecodeError Instr
  | [b, m1, m0] => do
    let m ← narrow 9 (join16 m1 m0)
    return .gfexp7 b m
  | _ => .error .wrongLength

/-- PERM32, opcode `0x03` (R53). -/
def decodePerm32 : List Byte → Except DecodeError Instr
  | [x3, x2, x1, x0] => .ok (.perm32 (join32 x3 x2 x1 x0))
  | _ => .error .wrongLength

/-- SBINIT, opcode `0x04` (R53). -/
def decodeSbinit : List Byte → Except DecodeError Instr
  | [] => .ok .sbinit
  | _ => .error .wrongLength

/-- SBRD, opcode `0x05` (R53). -/
def decodeSbrd : List Byte → Except DecodeError Instr
  | [t, i1, i0] => do
    let t ← narrow 2 t
    let i ← narrow 10 (join16 i1 i0)
    return .sbrd t i
  | _ => .error .wrongLength

/-- KEYSET, opcode `0x06` (R53). -/
def decodeKeyset (lim : Config.Limits) : List Byte → Except DecodeError Instr
  | ctx :: l3 :: l2 :: l1 :: l0 :: rest => do
    let ctx ← decodeCtx lim ctx
    let key ← decodeBytes lim rest
    return .keyset ctx (join32 l3 l2 l1 l0) key
  | _ => .error .wrongLength

/-- ROUNDF, opcode `0x07` (R53). -/
def decodeRoundf : List Byte → Except DecodeError Instr
  | [p3, p2, p1, p0, a3, a2, a1, a0, b3, b2, b1, b0, c3, c2, c1, c0] => do
    let sk0 ← narrow 20 (join32 a3 a2 a1 a0)
    let sk1 ← narrow 20 (join32 b3 b2 b1 b0)
    let sk2 ← narrow 20 (join32 c3 c2 c1 c0)
    return .roundf (join32 p3 p2 p1 p0) sk0 sk1 sk2
  | _ => .error .wrongLength

/-- Format `B` (R52): `ctx` and one `bytes` field, for ENC `0x08`, DEC `0x09` and DECALL `0x0B`. -/
def decodeBuffer (lim : Config.Limits) (make : Byte → List Byte → Instr) : List Byte → Except DecodeError Instr
  | ctx :: rest => do
    let ctx ← decodeCtx lim ctx
    let data ← decodeBytes lim rest
    return make ctx data
  | _ => .error .wrongLength

/-- DECRNG, opcode `0x0A` (R53). -/
def decodeDecrng (lim : Config.Limits) : List Byte → Except DecodeError Instr
  | ctx :: f3 :: f2 :: f1 :: f0 :: t3 :: t2 :: t1 :: t0 :: rest => do
    let ctx ← decodeCtx lim ctx
    let buf ← decodeBytes lim rest
    return .decrng ctx (join32 f3 f2 f1 f0) (join32 t3 t2 t1 t0) buf
  | _ => .error .wrongLength

/-- STAT, opcode `0x0C` (R53). -/
def decodeStat (lim : Config.Limits) : List Byte → Except DecodeError Instr
  | [ctx] => do
    let ctx ← decodeCtx lim ctx
    return .stat ctx
  | _ => .error .wrongLength

/-- The decoder: the opcode byte selects the command by its whole value (R54); a frame has nothing after its last
field (R51). -/
def decode (lim : Config.Limits) : List Byte → Except DecodeError Instr
  | [] => .error .wrongLength
  | op :: body =>
    match op.toNat with
    | 0x01 => decodeGfmul body
    | 0x02 => decodeGfexp7 body
    | 0x03 => decodePerm32 body
    | 0x04 => decodeSbinit body
    | 0x05 => decodeSbrd body
    | 0x06 => decodeKeyset lim body
    | 0x07 => decodeRoundf body
    | 0x08 => decodeBuffer lim .enc body
    | 0x09 => decodeBuffer lim .dec body
    | 0x0A => decodeDecrng lim body
    | 0x0B => decodeBuffer lim .decall body
    | 0x0C => decodeStat lim body
    | _ => .error .reservedOpcode

/-- The encoder: the frame of a command, field by field from R53. -/
def encode : Instr → List Byte
  | .gfmul a b m => [0x01, a, b] ++ bytes16 (m.setWidth 16)
  | .gfexp7 b m => [0x02, b] ++ bytes16 (m.setWidth 16)
  | .perm32 x => 0x03 :: bytes32 x
  | .sbinit => [0x04]
  | .sbrd t i => [0x05, t.setWidth 8] ++ bytes16 (i.setWidth 16)
  | .keyset ctx level key => [0x06, ctx] ++ bytes32 level ++ lengthPrefixed key
  | .roundf p sk0 sk1 sk2 =>
    0x07 :: (bytes32 p ++ bytes32 (sk0.setWidth 32) ++ bytes32 (sk1.setWidth 32) ++ bytes32 (sk2.setWidth 32))
  | .enc ctx data => [0x08, ctx] ++ lengthPrefixed data
  | .dec ctx data => [0x09, ctx] ++ lengthPrefixed data
  | .decrng ctx start stop buf => [0x0A, ctx] ++ bytes32 start ++ bytes32 stop ++ lengthPrefixed buf
  | .decall ctx buf => [0x0B, ctx] ++ lengthPrefixed buf
  | .stat ctx => [0x0C, ctx]

/-- The frame length that the opcode and the length field fix (R53, R57); `none` for a reserved opcode. Bytes that
are not there are read as 0, so that the length of a frame given only in part can be asked for. -/
def frameLength (f : List Byte) : Option Nat :=
  match (byteAt f 0).toNat with
  | 0x01 => some 5
  | 0x02 => some 4
  | 0x03 => some 5
  | 0x04 => some 1
  | 0x05 => some 4
  | 0x06 => some (10 + (be32 f 6).toNat)
  | 0x07 => some 17
  | 0x08 => some (6 + (be32 f 2).toNat)
  | 0x09 => some (6 + (be32 f 2).toNat)
  | 0x0A => some (14 + (be32 f 10).toNat)
  | 0x0B => some (6 + (be32 f 2).toNat)
  | 0x0C => some 2
  | _ => none

/-- The `n` bytes of a number, its least significant byte first: how spec/opcode_table.json numbers the bits of a
frame (the frame's first byte is bits 7..0). -/
def tableBytes : Nat → Nat → List Byte
  | 0, _ => []
  | n + 1, w => BitVec.ofNat 8 w :: tableBytes n (w / 256)

/-- The frame the table's bits stand for: the `nbits` bits of `w`, then 0 up to the frame's own length. -/
def tableFrame (nbits w : Nat) : List Byte :=
  let given := tableBytes ((nbits + 7) / 8) w
  given ++ List.replicate ((frameLength given).getD 0 - given.length) 0

/-- The command that the decoder reads from the frame whose bits are `w`, under the default limits of R5. -/
def decodeTableWord (nbits w : Nat) : Option Instr :=
  (decode Config.Limits.default (tableFrame nbits w)).toOption

end Sys2Proof
end

