-- ==== Sys2Proof/Machine/Reply.lean ====
section
/-!
DEFINITION. Responses (30_encoding.md rule R56) and status codes (60_exceptions.md rule R150).
-/

namespace Sys2Proof.Machine

/-- The errors of R150. -/
inductive Error where
  /-- R151 -/
  | invalidKeyLength
  /-- R152 -/
  | invalidBlockLength
  /-- R154 -/
  | invalidRange
  /-- R155 -/
  | noKey
  /-- R156 -/
  | illegalCommand
  /-- R157 -/
  | unsupportedLevel
  deriving DecidableEq, Repr

/-- The status byte of an error (R150). -/
def Error.code : Error → Byte
  | .invalidKeyLength => 0x01
  | .invalidBlockLength => 0x02
  | .invalidRange => 0x03
  | .noKey => 0x04
  | .illegalCommand => 0x05
  | .unsupportedLevel => 0x06

/-- The record STAT returns (R140). -/
structure StatusRecord where
  /-- `sbox_valid` -/
  sboxValid : Bool
  /-- `sbox_builds` -/
  sboxBuilds : Word
  /-- `key_valid` -/
  keyValid : Bool
  /-- `level` -/
  level : Word
  /-- `size` -/
  size : Word
  /-- `rounds` -/
  rounds : Word
  deriving DecidableEq, Repr

/-- The results of R56's table. -/
inductive Result where
  /-- SBINIT, KEYSET: nothing -/
  | nothing
  /-- GFMUL, GFEXP7 -/
  | value64 (v : DWord)
  /-- PERM32, SBRD, ROUNDF -/
  | value32 (v : Word)
  /-- ENC, DEC: 8 data bytes, no length field -/
  | block (bs : List Byte)
  /-- DECRNG, DECALL: a length, then the data -/
  | bytes (bs : List Byte)
  /-- STAT -/
  | status (r : StatusRecord)
  deriving DecidableEq, Repr

/-- A 1-bit value in a byte (R140). -/
def flagByte (b : Bool) : Byte := if b then 0x01 else 0x00

/-- The result fields, byte by byte (R56). -/
def Result.encode : Result → List Byte
  | .nothing => []
  | .value64 v => bytes64 v
  | .value32 v => bytes32 v
  | .block bs => bs
  | .bytes bs => lengthPrefixed bs
  | .status r =>
    [flagByte r.sboxValid] ++ bytes32 r.sboxBuilds ++ [flagByte r.keyValid] ++ bytes32 r.level ++ bytes32 r.size
      ++ bytes32 r.rounds

/-- The response of a command that completed: status `OK`, then the result fields (R56). -/
def okBytes (r : Result) : List Byte := 0x00 :: r.encode

/-- The response of a command that raised an error: the status byte alone (R56, R153). -/
def errorBytes (e : Error) : List Byte := [e.code]

end Sys2Proof.Machine
end

