-- ==== Sys2Proof/Machine/KeySchedule.lean ====
section
/-!
DEFINITION. The key-schedule expander (42_key_schedule.md rules R95 to R102).
-/

namespace Sys2Proof.Machine

/-- A subkey triple: three 20-bit lanes (10_state.md rules R19, R21). -/
structure Subkey where
  /-- lane 0 -/
  l0 : Lane
  /-- lane 1 -/
  l1 : Lane
  /-- lane 2 -/
  l2 : Lane
  deriving DecidableEq, Repr

/-- The subkey that a round starts from: `[0, 0, 0]` (R98). -/
def Subkey.zero : Subkey := { l0 := 0, l1 := 0, l2 := 0 }

/-- The four key words `kb[0..3]` of a key block (R97). -/
structure KeyWords where
  /-- `kb[0]` -/
  w0 : KeyWord
  /-- `kb[1]` -/
  w1 : KeyWord
  /-- `kb[2]` -/
  w2 : KeyWord
  /-- `kb[3]` -/
  w3 : KeyWord
  deriving DecidableEq, Repr

/-- `KEYROT` (R95). -/
def keyrot : List Nat := [0, 1, 2, 3, 2, 1, 3, 0, 1, 3, 2, 0, 3, 1, 0, 2]

/-- `variant(level)` (R96): the size and the number of rounds. -/
def variant (level : Int) : Nat × Nat := if level < 1 then (1, 8) else (level.toNat, 16 * level.toNat)

/-- `key_words(key, i)` (R97): bytes 0 and 1 of block `i` are `kb[3]`, bytes 6 and 7 are `kb[0]`. -/
def keyWords (key : List Byte) (i : Nat) : KeyWords :=
  { w3 := be16 key (8 * i), w2 := be16 key (8 * i + 2), w1 := be16 key (8 * i + 4), w0 := be16 key (8 * i + 6) }

/-- The new word after a bit was taken: shifted right, the complement of the bit on top (R98). -/
def stepWord (w : KeyWord) : KeyWord := (w >>> 1) ||| ((w &&& 1#16) ^^^ 1#16) <<< 15

/-- The lane with the low bit of a word shifted in from the low end (R98). -/
def pushBit (lane : Lane) (w : KeyWord) : Lane := (lane <<< 1) ||| (w &&& 1#16).setWidth 20

/-- The four word visits `k = 0..3` of one iteration, from word `kr` on (R98): the lane takes the low bits of the
words `kr`, `kr + 1`, `kr + 2`, `kr + 3` mod 4, and each word is stepped once. -/
def visitWords : Nat → Nat → KeyWords → Lane → KeyWords × Lane
  | 0, _, kb, lane => (kb, lane)
  | n + 1, w, kb, lane =>
    match w % 4 with
    | 0 => visitWords n (w + 1) { kb with w0 := stepWord kb.w0 } (pushBit lane kb.w0)
    | 1 => visitWords n (w + 1) { kb with w1 := stepWord kb.w1 } (pushBit lane kb.w1)
    | 2 => visitWords n (w + 1) { kb with w2 := stepWord kb.w2 } (pushBit lane kb.w2)
    | _ => visitWords n (w + 1) { kb with w3 := stepWord kb.w3 } (pushBit lane kb.w3)

/-- One iteration `j` (R98): the lane written is `j mod 3`. -/
def extractStep (kr : Nat) (st : KeyWords × Subkey) (j : Nat) : KeyWords × Subkey :=
  match j % 3 with
  | 0 => let r := visitWords 4 kr st.1 st.2.l0; (r.1, { st.2 with l0 := r.2 })
  | 1 => let r := visitWords 4 kr st.1 st.2.l1; (r.1, { st.2 with l1 := r.2 })
  | _ => let r := visitWords 4 kr st.1 st.2.l2; (r.1, { st.2 with l2 := r.2 })

/-- The 15 iterations of one round (R98): the word state after it and the round's subkey. -/
def extractRound (kb : KeyWords) (kr : Nat) : KeyWords × Subkey :=
  (List.range 15).foldl (extractStep kr) (kb, Subkey.zero)

/-- `sched_build(kb, sched, n, off)` from its round `i` on, for `k` more rounds (R98). -/
def schedBuildFrom (n off : Nat) : Nat → Nat → List Subkey → KeyWords → List Subkey × KeyWords
  | 0, _, sched, kb => (sched, kb)
  | k + 1, i, sched, kb =>
    let r := extractRound kb (keyrot.getD (off + i) 0)
    schedBuildFrom n off k (i + 1) (sched.set (n + i) r.2) r.1

/-- `sched_build(kb, sched, n, off)` (R98): writes `sched[n]` to `sched[n+7]` and steps the words. -/
def schedBuild (kb : KeyWords) (sched : List Subkey) (n off : Nat) : List Subkey × KeyWords :=
  schedBuildFrom n off 8 0 sched kb

/-- A schedule of `rounds` entries before its first write; every entry is written before it is read (R102). -/
def blankSched (rounds : Nat) : List Subkey := List.replicate rounds Subkey.zero

/-- `key_expand_thin(key)` (R100): one forward pass over the single key block. -/
def keyExpandThin (key : List Byte) : List Subkey := (schedBuild (keyWords key 0) (blankSched 8) 0 0).1

/-- The two passes of key block `i` (R101): the tail pass goes on from the words the forward pass left. -/
def expandBlock (key : List Byte) (rounds : Nat) (sched : List Subkey) (i : Nat) : List Subkey :=
  let fwd := schedBuild (keyWords key i) sched (8 * i) 0
  (schedBuild fwd.2 fwd.1 (rounds - 8 - 8 * i) 8).1

/-- `key_expand_general(key, size, rounds)` (R101). -/
def keyExpandGeneral (key : List Byte) (size rounds : Nat) : List Subkey :=
  (List.range size).foldl (expandBlock key rounds) (blankSched rounds)

/-- `key_expand(level, key)` (R102). -/
def keyExpand (level : Int) (key : List Byte) : List Subkey :=
  if (variant level).2 = 8 then keyExpandThin key else keyExpandGeneral key (variant level).1 (variant level).2

end Sys2Proof.Machine
end

