-- ==== Sys2Proof/Machine/Field.lean ====
section
/-!
DEFINITION. Field arithmetic (40_field_arithmetic.md rules R70 and R73): the multiplier and the seventh power, as
functions on natural numbers, as the spec defines them: nothing truncates.
-/

namespace Sys2Proof.Machine

/-- The loop of `gf_mult` (R70) from the accumulator `acc`: at most `fuel` iterations, ended by `b = 0`. -/
def gfLoop (m : Nat) : Nat → Nat → Nat → Nat → Nat
  | 0, acc, _, _ => acc
  | fuel + 1, acc, a, b =>
    if b = 0 then acc
    else
      let acc' := if b.testBit 0 then acc ^^^ a else acc
      let a2 := a <<< 1
      let a' := if 256 ≤ a2 then a2 ^^^ m else a2
      gfLoop m fuel acc' a' (b >>> 1)

/-- `gf_mult(a, b, m)` (R70). The loop runs once per bit of `b` up to its highest set bit, so `log2 b + 1`
iterations are enough. -/
def gfMult (a b m : Nat) : Nat := gfLoop m (Nat.log2 b + 1) 0 a b

/-- `gf_exp7(b, m)` (R73): exactly four multiplications, `b` first in the second and the fourth. -/
def gfExp7 (b m : Nat) : Nat :=
  if b = 0 then 0
  else
    let x2 := gfMult b b m
    let x3 := gfMult b x2 m
    let x6 := gfMult x3 x3 m
    gfMult b x6 m

end Sys2Proof.Machine
end

