-- ==== Sys2Proof/Machine/Sbox.lean ====
section
/-!
DEFINITION. The bit permutation, the table constants and the value of a table entry (41_sbox.md rules R80 to R86).
The constants are wired into the block and are no state (10_state.md rule R22); their values are the spec's, which it
marks as supplied from general knowledge and checked against the source's vector (log entry 12).
-/

namespace Sys2Proof.Machine

/-- `PPOS` (R80): input bit `i` goes to output bit `PPOS[i]`. -/
def ppos : List Nat :=
  [0, 7, 10, 13, 19, 21, 24, 30, 3, 5, 8, 14, 16, 23, 26, 29,
   2, 4, 9, 15, 17, 22, 27, 28, 1, 6, 11, 12, 18, 20, 25, 31]

/-- `PBOX` (R80): `PBOX[i] = 1 << PPOS[i]`. -/
def pbox : List Word := ppos.map fun k => 1#32 <<< k

/-- `perm32(x)` (R81): the OR of `PBOX[i]` over the set bits `i` of `x`. -/
def perm32 (x : Word) : Word :=
  pbox.zipIdx.foldl (fun res e => if x.getLsbD e.2 then res ||| e.1 else res) 0#32

/-- `SXOR[t][row]` (R83). -/
def sxor : List (List Byte) :=
  [[0x83, 0x85, 0x9b, 0xcd],
   [0xcc, 0xa7, 0xad, 0x41],
   [0x4b, 0x2e, 0xd4, 0x33],
   [0xea, 0xcb, 0x2e, 0x04]]

/-- `SMOD[t][row]` (R84). -/
def smod : List (List Nat) :=
  [[333, 313, 505, 369],
   [379, 375, 319, 391],
   [361, 445, 451, 397],
   [397, 425, 395, 505]]

/-- The entry of a 4 by 4 matrix; both indices are 2 bits, so every lookup is inside (the default is never used). -/
def matrixAt {α : Type} (d : α) (m : List (List α)) (t row : BitVec 2) : α := (m.getD t.toNat []).getD row.toNat d

/-- The row of a table index: `{i[9], i[0]}` (R85). -/
def indexRow (i : BitVec 10) : BitVec 2 := i.extractLsb' 9 1 ++ i.extractLsb' 0 1

/-- The column of a table index: `i[8:1]` (R85). -/
def indexCol (i : BitVec 10) : Byte := i.extractLsb' 1 8

/-- The 8-bit value that a table entry is made of: `gf_exp7(col ^ SXOR[t][row], SMOD[t][row])` (R86). -/
def sboxByte (t : BitVec 2) (i : BitVec 10) : Nat :=
  gfExp7 (indexCol i ^^^ matrixAt 0 sxor t (indexRow i)).toNat (matrixAt 0 smod t (indexRow i))

/-- `sbox_entry(t, i)` (R86): the byte in the byte lane of its table, permuted. -/
def sboxEntry (t : BitVec 2) (i : BitVec 10) : Word := perm32 (BitVec.ofNat 32 (sboxByte t i <<< (24 - 8 * t.toNat)))

/-- The contents of the four tables after a build (R88): entry `i` of table `t` at position `i` of list `t`. -/
def builtTables : List (List Word) :=
  (List.range' 0 4).map fun t => (List.range' 0 1024).map fun i => sboxEntry (BitVec.ofNat 2 t) (BitVec.ofNat 10 i)

end Sys2Proof.Machine
end

