-- ==== Sys2Proof/Machine/State.lean ====
section
/-!
DEFINITION. The state of the block (10_state.md rule R10), as plain data, with what stands between it and its
requesters: the commands presented, the choice among them, and the responses given (20_memory.md rule R40,
30_encoding.md rule R56; log entries 2 and 3).
-/

namespace Sys2Proof.Machine

/-- The table space `SBOX` (R30), the only memory with an index space of its own: entry `i` of table `t` is at
position `i` of list `t`. It is addressed by no requester and has no byte addresses (R39), so its cells are its
32-bit entries (R35). Before the build it holds no entry at all: reading one is a fault of the model (R31, log
entry 4). -/
abbrev Memory := List (List Word)

/-- The canonical form of the table space: nothing written, or four tables of 1024 entries (R11). -/
def Memory.wf (m : Memory) : Bool := decide (m = []) || (m.length == 4 && m.all fun t => t.length == 1024)

/-- The shared table set (R10 to R13). -/
structure TableSet where
  /-- `SBOX` -/
  sbox : Memory
  /-- `SBOX_VALID`, 1 bit -/
  valid : Bool
  /-- `SBOX_BUILDS`, 32 bits -/
  builds : Word
  deriving DecidableEq, Repr

/-- A key context `CTX[c]` (R14 to R19). -/
structure Context where
  /-- `KEY_VALID`, 1 bit -/
  keyValid : Bool
  /-- `LEVEL`, 32 bits, signed, stored as given -/
  level : Word
  /-- `SIZE`, 32 bits -/
  size : Word
  /-- `ROUNDS`, 32 bits -/
  rounds : Word
  /-- `KEY`, `8*SIZE` bytes; read by no command (R18) -/
  key : List Byte
  /-- `SCHED`: entries 0 to `ROUNDS-1`; an entry that was never written is not there (R28, log entry 5) -/
  sched : List Subkey
  deriving DecidableEq, Repr

/-- A command as a requester presents it (R24, R163): the bytes of its frame, and whom to answer. The number is the
model's own and reaches no rule: the block sees no identifiers. -/
structure Request where
  /-- whom to answer -/
  requester : Nat
  /-- the frame (R51) -/
  frame : List Byte
  deriving DecidableEq, Repr

/-- The answer to one command (R56): status byte and result fields. -/
structure Response where
  /-- who asked -/
  requester : Nat
  /-- the bytes of the response -/
  bytes : List Byte
  deriving DecidableEq, Repr

/-- The whole state. The fields up to `ctxs` are the block's (R5, R10); the others are the model's, for the
interface that the spec leaves to the platform (R39). -/
structure State where
  /-- the build parameters, which no step changes (R5) -/
  params : Config.Params
  /-- the shared table set -/
  tables : TableSet
  /-- the contexts `CTX[0]` to `CTX[NCTX-1]` -/
  ctxs : List Context
  /-- the commands presented and not yet run, each requester's in its own order -/
  pending : List Request
  /-- the order that is not determined (R40): which requester's command takes effect next, choice by choice -/
  order : List Nat
  /-- the requester whose command is the one being run -/
  serving : Nat
  /-- the responses given, oldest first -/
  responses : List Response
  /-- the platform asks for a reset (R170) -/
  resetAsked : Bool
  deriving DecidableEq, Repr

/-- The ways the model's machine stops. Both are reads that the spec gives no value and proves never made (R31, R32):
safe, since the block never does either. -/
inductive Fault where
  /-- A read of `SBOX` while `SBOX_VALID = 0`, or of an entry that is not there. Raised by SBRD, ROUNDF, ENC, DEC,
  DECRNG and DECALL, in states no run from reset reaches (R31; 93_implementation_defined.md U5). Safe. -/
  | tableUnwritten
  /-- A read of a schedule entry that is not there. Raised by ENC, DEC, DECRNG and DECALL, in states no run from reset
  reaches (R32; U6). Safe. -/
  | scheduleUnwritten
  deriving DecidableEq, Repr

/-- Why an instruction has no meaning. -/
inductive Refusal where
  /-- The instruction is not modelled. Raised by an arm of `exec` only; no arm does. Safe. -/
  | notModelled (mnemonic : String)
  deriving DecidableEq, Repr

/-- `NCTX` (R5): the number of contexts the block holds. -/
def State.nctx (s : State) : Nat := s.ctxs.length

/-- What the decoder has to know (R55). -/
def State.limits (s : State) : Config.Limits := { nctx := s.nctx, maxBuf := s.params.maxBuf }

/-- A context after reset (R28). -/
def Context.empty : Context :=
  { keyValid := false, level := 0, size := 0, rounds := 0, key := [], sched := [] }

/-- The table set after reset (R28): with `SBOX_ROM` the tables are constants, valid and never built (R92). -/
def TableSet.atReset (rom : Bool) : TableSet :=
  if rom then { sbox := builtTables, valid := true, builds := 0 } else { sbox := [], valid := false, builds := 0 }

/-- The machine after reset, for given parameters (R28): no command has been presented. -/
def State.resetWith (p : Config.Params) (nctx : Nat) : State :=
  { params := p
    tables := TableSet.atReset p.sboxRom
    ctxs := List.replicate nctx Context.empty
    pending := []
    order := []
    serving := 0
    responses := []
    resetAsked := false }

/-- The machine after reset, with the default parameters of R5. -/
def State.reset : State := State.resetWith Config.Params.default Config.defaultNctx

end Sys2Proof.Machine
end

