-- ==== Sys2Proof/Machine/Ops.lean ====
section
/-!
DEFINITION. The shared operations: reading and building the tables (R31, R88, R89), reading a schedule (R32), writing
a context (R29), ending a command with a response or with an error (R56, R153), presenting a command and choosing the
one that runs next (R40), reset (R170).
-/

namespace Sys2Proof.Machine

/-- The entry that is there, if one is. -/
def Memory.read (m : Memory) (t : BitVec 2) (i : BitVec 10) : Option Word := m[t.toNat]?.bind fun col => col[i.toNat]?

/-- The read `SBOX[t][i]` (R31): defined while `SBOX_VALID = 1` only. -/
def TableSet.read (T : TableSet) (t : BitVec 2) (i : BitVec 10) : Except Fault Word :=
  if T.valid then
    match T.sbox.read t i with
    | some v => .ok v
    | none => .error .tableUnwritten
  else .error .tableUnwritten

/-- `build_tables` (R88): all 4096 entries, and the publish flag and the counter with them. -/
def buildTables (T : TableSet) : TableSet := { sbox := builtTables, valid := true, builds := T.builds + 1 }

/-- `ensure_sbox` (R89): the once-guard. -/
def ensureSbox (T : TableSet) : TableSet := if T.valid then T else buildTables T

/-- The read `SCHED[n]` (R32). -/
def readSched (sched : List Subkey) (n : Nat) : Except Fault Subkey :=
  match sched[n]? with
  | some sk => .ok sk
  | none => .error .scheduleUnwritten

/-- `CTX[ctx] <- c`: all fields together (R29). -/
def State.setContext (s : State) (ctx : Byte) (c : Context) : State := { s with ctxs := s.ctxs.set ctx.toNat c }

/-- The state with the tables made valid (R89). -/
def State.ensureTables (s : State) : State := { s with tables := ensureSbox s.tables }

/-- The response of the command that is being run (R56): exactly one, to the requester that presented it. -/
def State.answer (s : State) (bs : List Byte) : State :=
  { s with responses := s.responses ++ [{ requester := s.serving, bytes := bs }] }

/-- `return v` (R9). -/
def State.finish (s : State) (r : Result) : State := s.answer (okBytes r)

/-- `raise E` (R153): the status byte alone, and no state written. It is the whole of taking an exception here: there
is no trap entry (R160) and no return from one (R161). -/
def State.raise (s : State) (e : Error) : State := s.answer (errorBytes e)

/-- A requester presents a command (R24). -/
def State.present (s : State) (requester : Nat) (frame : List Byte) : State :=
  { s with pending := s.pending ++ [{ requester, frame }] }

/-- The oldest pending command of requester `r`, and the others. -/
def takeOldestOf (r : Nat) : List Request → Option (Request × List Request)
  | [] => none
  | q :: rest =>
    if q.requester = r then some (q, rest)
    else
      match takeOldestOf r rest with
      | some (q', rest') => some (q', q :: rest')
      | none => none

/-- The command that takes effect next (R40): the oldest one of the requester that `order` names; the oldest of all
where `order` names none or one that has nothing pending. -/
def arbitrate (pending : List Request) (order : List Nat) : Option (Request × List Request × List Nat) :=
  match pending with
  | [] => none
  | q :: rest =>
    match order with
    | [] => some (q, rest, [])
    | r :: order' =>
      match takeOldestOf r (q :: rest) with
      | some (q', rest') => some (q', rest', order')
      | none => some (q, rest, order')

/-- Accept the next command: its frame, and the state in which it runs. -/
def State.accept (s : State) : Option (List Byte × State) :=
  match arbitrate s.pending s.order with
  | none => none
  | some (q, pending, order) => some (q.frame, { s with pending := pending, order := order, serving := q.requester })

/-- The reset event (R170): every piece of the block's state at its reset value; the commands presented are abandoned
and get no response. The responses given before it stay given. -/
def State.doReset (s : State) : State := { State.resetWith s.params s.nctx with responses := s.responses }

end Sys2Proof.Machine
end

