-- ==== Sys2Proof/Machine/Round.lean ====
section
/-!
DEFINITION. The Feistel round function (43_round_function.md rules R110 to R113).
-/

namespace Sys2Proof.Machine

/-- `expand(p)` (R110): two 20-bit values from 32 bits, by the spec's shifts and masks. -/
def expand (p : Word) : Lane × Lane :=
  ((((p >>> 16) &&& 0x3ff#32) ||| (p.rotateRight 14 &&& 0xffc00#32)).setWidth 20,
   ((p &&& 0x3ff#32) ||| ((p <<< 2) &&& 0xffc00#32)).setWidth 20)

/-- `mix(tl, tr, sk)` (R111). -/
def mix (tl tr : Lane) (sk : Subkey) : Lane × Lane :=
  let sel := sk.l2 &&& (tl ^^^ tr)
  (sel ^^^ tl ^^^ sk.l0, sel ^^^ tr ^^^ sk.l1)

/-- `lookup(al, ar)` (R112): one entry from each table, ORed. -/
def lookup (T : TableSet) (al ar : Lane) : Except Fault Word := do
  let e0 ← T.read 0 (al.extractLsb' 10 10)
  let e1 ← T.read 1 (al.extractLsb' 0 10)
  let e2 ← T.read 2 (ar.extractLsb' 10 10)
  let e3 ← T.read 3 (ar.extractLsb' 0 10)
  return e0 ||| e1 ||| e2 ||| e3

/-- `round_f(p, sk)` (R113). -/
def roundF (T : TableSet) (p : Word) (sk : Subkey) : Except Fault Word :=
  let t := expand p
  let m := mix t.1 t.2 sk
  lookup T m.1 m.2

end Sys2Proof.Machine
end

