-- ==== Sys2Proof/Machine/Block.lean ====
section
/-!
DEFINITION. The Feistel block engine (44_block_engine.md rules R118 to R121).
-/

namespace Sys2Proof.Machine

/-- `pack(data)` (R118). -/
def pack (data : List Byte) : Word × Word := (be32 data 0, be32 data 4)

/-- `unpack(l, r)` (R120): the halves change places. -/
def unpack (l r : Word) : List Byte := bytes32 r ++ bytes32 l

/-- One pass of the loop bodies of R119 and R121: `l` from `r` with entry `i`, then `r` from the new `l` with
entry `j`. -/
def roundPair (T : TableSet) (sched : List Subkey) (i j : Nat) (lr : Word × Word) : Except Fault (Word × Word) := do
  let fr ← roundF T lr.2 (← readSched sched i)
  let l := lr.1 ^^^ fr
  let fl ← roundF T l (← readSched sched j)
  return (l, lr.2 ^^^ fl)

/-- The loop of R119, `n` passes from entry `i` up. -/
def encryptFrom (T : TableSet) (sched : List Subkey) : Nat → Nat → Word × Word → Except Fault (Word × Word)
  | 0, _, lr => .ok lr
  | n + 1, i, lr => do encryptFrom T sched n (i + 2) (← roundPair T sched i (i + 1) lr)

/-- The loop of R121, `n` passes: entries `2n-1`, `2n-2`, down to 0. -/
def decryptFrom (T : TableSet) (sched : List Subkey) : Nat → Word × Word → Except Fault (Word × Word)
  | 0, lr => .ok lr
  | n + 1, lr => do decryptFrom T sched n (← roundPair T sched (2 * n + 1) (2 * n) lr)

/-- `encrypt_block(sched, rounds, data)` (R119), for an even `rounds`: `rounds/2` passes. -/
def encryptBlock (T : TableSet) (sched : List Subkey) (rounds : Nat) (data : List Byte) : Except Fault (List Byte) := do
  let lr ← encryptFrom T sched (rounds / 2) 0 (pack data)
  return unpack lr.1 lr.2

/-- `decrypt_block(sched, rounds, data)` (R121), for an even `rounds`. -/
def decryptBlock (T : TableSet) (sched : List Subkey) (rounds : Nat) (data : List Byte) : Except Fault (List Byte) := do
  let lr ← decryptFrom T sched (rounds / 2) (pack data)
  return unpack lr.1 lr.2

end Sys2Proof.Machine
end

