-- ==== Sys2Proof/Machine/Operands.lean ====
section
/-!
DEFINITION. The checks a command makes on its operands before its first write (60_exceptions.md rules R153, R158), each
ending the command with its error. There are no addressing modes and no operand registers (R23); the block has no flags
either (R25), so the package has no file of flag computations.
-/

namespace Sys2Proof.Machine

open Host

/-- The outcome of a step. -/
abbrev Out := Outcome State Fault Refusal

/-- `ctx < NCTX`, else `IllegalCommand` (R55): go on with the context. -/
def withContext (s : State) (ctx : Byte) (k : Context → Out) : Out :=
  match s.ctxs[ctx.toNat]? with
  | some c => k c
  | none => .next (s.raise .illegalCommand)

/-- `len <= MAXBUF`, else `IllegalCommand` (R55). -/
def withBytes (s : State) (bs : List Byte) (k : Out) : Out :=
  if bytesFit s.limits bs then k else .next (s.raise .illegalCommand)

/-- `KEY_VALID = 1`, else `NoKey` (R155). -/
def withKey (s : State) (c : Context) (k : Out) : Out := if c.keyValid then k else .next (s.raise .noKey)

/-- `len(data) = 8`, else `InvalidBlockLength` (R152). -/
def withBlock (s : State) (data : List Byte) (k : Out) : Out :=
  if data.length = 8 then k else .next (s.raise .invalidBlockLength)

/-- `level <= MAXLEVEL`, else `UnsupportedLevel` (R157). -/
def levelSupported (p : Config.Params) (level : Int) : Bool :=
  match p.maxLevel with
  | none => true
  | some n => decide (level ≤ (n : Int))

/-- The range check of R132: `from > to`, `from < 0` and `to > len(buf)` are each out of range. -/
def rangeOk (start stop : Int) (len : Nat) : Bool := decide (start ≤ stop ∧ 0 ≤ start ∧ stop ≤ (len : Int))

/-- End the command with the value that was computed, or stop where a read had none (R31, R32). -/
def deliver (s : State) : Except Fault Result → Out
  | .ok r => .next (s.finish r)
  | .error f => .fault f

end Sys2Proof.Machine
end

