-- ==== Sys2Proof/Machine/BlockCommands.lean ====
section
/-!
DEFINITION. ENC and DEC (44_block_engine.md): they write no state; `NoKey` before `InvalidBlockLength` (R158).
-/

namespace Sys2Proof.Machine

/-- ENC (R123). -/
def execEnc (ctx : Byte) (data : List Byte) (s : State) : Out :=
  withContext s ctx fun c => withBytes s data <| withKey s c <| withBlock s data <|
    deliver s ((encryptBlock s.tables c.sched c.rounds.toNat data).map .block)

/-- DEC (R124). -/
def execDec (ctx : Byte) (data : List Byte) (s : State) : Out :=
  withContext s ctx fun c => withBytes s data <| withKey s c <| withBlock s data <|
    deliver s ((decryptBlock s.tables c.sched c.rounds.toNat data).map .block)

end Sys2Proof.Machine
end

