-- ==== Sys2Proof/Machine/Buffer.lean ====
section
/-!
DEFINITION. The buffer helper (45_buffer_helper.md rule R130).
-/

namespace Sys2Proof.Machine

/-- The loop of R130 with `n` full chunks to go, at position `pos`: each chunk decrypted alone and appended, then the
remainder copied unchanged. -/
def decryptChunks (T : TableSet) (sched : List Subkey) (rounds : Nat) (buf : List Byte) (stop : Nat) :
    Nat → Nat → List Byte → Except Fault (List Byte)
  | 0, pos, out => .ok (out ++ slice buf pos stop)
  | n + 1, pos, out => do
    let chunk ← decryptBlock T sched rounds (slice buf pos (pos + 8))
    decryptChunks T sched rounds buf stop n (pos + 8) (out ++ chunk)

/-- `decrypt_range(sched, rounds, buf, from, to)` (R130): `floor((to - from) / 8)` chunks from `from` on. -/
def decryptRange (T : TableSet) (sched : List Subkey) (rounds : Nat) (buf : List Byte) (start stop : Nat) :
    Except Fault (List Byte) :=
  decryptChunks T sched rounds buf stop ((stop - start) / 8) start []

end Sys2Proof.Machine
end

