-- ==== Sys2Proof/Machine/BufferCommands.lean ====
section
/-!
DEFINITION. DECRNG and DECALL (45_buffer_helper.md): they write no state; `NoKey` before `InvalidRange` (R158).
-/

namespace Sys2Proof.Machine

/-- DECRNG (R132). -/
def execDecrng (ctx : Byte) (start stop : Word) (buf : List Byte) (s : State) : Out :=
  withContext s ctx fun c => withBytes s buf <| withKey s c <|
    if rangeOk start.toInt stop.toInt buf.length then
      deliver s ((decryptRange s.tables c.sched c.rounds.toNat buf start.toNat stop.toNat).map .bytes)
    else .next (s.raise .invalidRange)

/-- DECALL (R133). -/
def execDecall (ctx : Byte) (buf : List Byte) (s : State) : Out :=
  withContext s ctx fun c => withBytes s buf <| withKey s c <|
    deliver s ((decryptRange s.tables c.sched c.rounds.toNat buf 0 buf.length).map .bytes)

end Sys2Proof.Machine
end

