-- ==== Sys2Proof/Machine/FieldCommands.lean ====
section
/-!
DEFINITION. GFMUL, GFEXP7 (40_field_arithmetic.md) and PERM32 (41_sbox.md): functions of their operands; no state is
read or written and no build is started.
-/

namespace Sys2Proof.Machine

/-- GFMUL (R72): the natural number of R70, zero-extended to 64 bits. -/
def execGfmul (a b : Byte) (m : BitVec 9) (s : State) : Out :=
  .next (s.finish (.value64 (BitVec.ofNat 64 (gfMult a.toNat b.toNat m.toNat))))

/-- GFEXP7 (R75): the natural number of R73, zero-extended to 64 bits. -/
def execGfexp7 (b : Byte) (m : BitVec 9) (s : State) : Out :=
  .next (s.finish (.value64 (BitVec.ofNat 64 (gfExp7 b.toNat m.toNat))))

/-- PERM32 (R82). -/
def execPerm32 (x : Word) (s : State) : Out := .next (s.finish (.value32 (perm32 x)))

end Sys2Proof.Machine
end

