-- ==== Sys2Proof/Machine/KeyCommands.lean ====
section
/-!
DEFINITION. KEYSET (42_key_schedule.md).
-/

namespace Sys2Proof.Machine

/-- The context that a successful KEYSET writes (R104). -/
def keyedContext (level : Word) (key : List Byte) : Context :=
  { keyValid := true
    level := level
    size := BitVec.ofNat 32 (variant level.toInt).1
    rounds := BitVec.ofNat 32 (variant level.toInt).2
    key := key
    sched := keyExpand level.toInt key }

/-- KEYSET (R104): every check before the first write (R103, R153), the level before the length (R158), the tables
before the context. -/
def execKeyset (ctx : Byte) (level : Word) (key : List Byte) (s : State) : Out :=
  withContext s ctx fun _ => withBytes s key <|
    if levelSupported s.params level.toInt then
      if key.length = 8 * (variant level.toInt).1 then
        .next ((s.ensureTables.setContext ctx (keyedContext level key)).finish .nothing)
      else .next (s.raise .invalidKeyLength)
    else .next (s.raise .unsupportedLevel)

end Sys2Proof.Machine
end

