-- ==== Sys2Proof/Machine/SystemCommands.lean ====
section
/-!
DEFINITION. STAT (46_system.md).
-/

namespace Sys2Proof.Machine

/-- The record STAT reads (R140). -/
def statusOf (T : TableSet) (c : Context) : StatusRecord :=
  { sboxValid := T.valid
    sboxBuilds := T.builds
    keyValid := c.keyValid
    level := c.level
    size := c.size
    rounds := c.rounds }

/-- STAT (R140): it does not start a build, and it succeeds on a context that holds no instance. -/
def execStat (ctx : Byte) (s : State) : Out :=
  withContext s ctx fun c => .next (s.finish (.status (statusOf s.tables c)))

end Sys2Proof.Machine
end

