-- ==== Sys2Proof/Machine/TableCommands.lean ====
section
/-!
DEFINITION. SBINIT, SBRD (41_sbox.md) and ROUNDF (43_round_function.md): each makes the tables valid first (R89).
-/

namespace Sys2Proof.Machine

/-- SBINIT (R90). -/
def execSbinit (s : State) : Out := .next (s.ensureTables.finish .nothing)

/-- SBRD (R91). -/
def execSbrd (t : BitVec 2) (i : BitVec 10) (s : State) : Out :=
  let s1 := s.ensureTables
  deliver s1 ((s1.tables.read t i).map .value32)

/-- ROUNDF (R115). -/
def execRoundf (p : Word) (sk0 sk1 sk2 : Lane) (s : State) : Out :=
  let s1 := s.ensureTables
  deliver s1 ((roundF s1.tables p { l0 := sk0, l1 := sk1, l2 := sk2 }).map .value32)

end Sys2Proof.Machine
end

