-- ==== Sys2Proof/Machine/Dispatch.lean ====
section
/-! DEFINITION. The meaning of each command, one arm per constructor (30_encoding.md rule R50). -/

namespace Sys2Proof.Machine
open Host

def exec (i : Instr) (s : State) : Host.Outcome State Fault Refusal :=
  match i with
  | .gfmul a b m => Sys2Proof.Machine.execGfmul a b m s
  | .gfexp7 b m => Sys2Proof.Machine.execGfexp7 b m s
  | .perm32 x => Sys2Proof.Machine.execPerm32 x s
  | .sbinit => Sys2Proof.Machine.execSbinit s
  | .sbrd t n => Sys2Proof.Machine.execSbrd t n s
  | .keyset ctx level key => Sys2Proof.Machine.execKeyset ctx level key s
  | .roundf p sk0 sk1 sk2 => Sys2Proof.Machine.execRoundf p sk0 sk1 sk2 s
  | .enc ctx data => Sys2Proof.Machine.execEnc ctx data s
  | .dec ctx data => Sys2Proof.Machine.execDec ctx data s
  | .decrng ctx start stop buf => Sys2Proof.Machine.execDecrng ctx start stop buf s
  | .decall ctx buf => Sys2Proof.Machine.execDecall ctx buf s
  | .stat ctx => Sys2Proof.Machine.execStat ctx s

end Sys2Proof.Machine
end

