-- ==== Sys2Proof/Machine/Step.lean ====
section
/-!
DEFINITION. One step: one whole command (20_memory.md rule R40), or the reset event, or nothing when the block is idle
(60_exceptions.md rule R166).
-/

namespace Sys2Proof.Machine

open Host

/-- One step. A reset that is asked for comes first (R170); else the next command in the order of R40 is accepted,
decoded and run; a malformed frame is answered with `IllegalCommand` and changes nothing (R54, R55, R156). -/
def step (s : State) : Outcome State Fault Refusal :=
  if s.resetAsked then .next s.doReset
  else
    match s.accept with
    | none => .next s
    | some (frame, s1) =>
      match decode s1.limits frame with
      | .ok i => exec i s1
      | .error _ => .next (s1.raise .illegalCommand)

/-- `s` with the frame of the table's bits presented by requester 0, chosen to run next, and no reset asked for (log
entry 2). -/
def State.withFetchWord (s : State) (nbits w : Nat) : State :=
  { s with
    pending := { requester := 0, frame := tableFrame nbits w } :: s.pending
    order := 0 :: s.order
    resetAsked := false }

end Sys2Proof.Machine
end

