-- ==== Sys2Proof/Safety.lean ====
section
/-!
DEFINITION. The terms the statements use: the invariant of the block (10_state.md rules R12, R20, R27), the errors that
apply to a command and which of them is reported (60_exceptions.md rule R158), the parts of a state a command may
change, and the polynomial that a natural number stands for (40_field_arithmetic.md rule R71).
-/

namespace Sys2Proof.Machine

/-- The table set holds what R12, R27 and R28 say: the final contents if `SBOX_VALID`, else nothing; one build counted
exactly when the tables were built and are no constants. -/
structure TablesOk (p : Config.Params) (T : TableSet) : Prop where
  /-- R12, R27 (d), R28 -/
  contents : T.sbox = if T.valid then builtTables else []
  /-- R27 (b): built at most once -/
  lazy : p.sboxRom = false → T.builds = if T.valid then 1 else 0
  /-- R27 (c): constants are valid and never built -/
  rom : p.sboxRom = true → T.valid = true ∧ T.builds = 0

/-- A context that holds an instance satisfies R20 and R27 (a); one that holds none is as reset left it (R28, R29). -/
structure ContextOk (p : Config.Params) (T : TableSet) (c : Context) : Prop where
  /-- R28, R29 -/
  unkeyed : c.keyValid = false → c = Context.empty
  /-- R27 (a) -/
  tablesValid : c.keyValid = true → T.valid = true
  /-- R157 -/
  levelOk : c.keyValid = true → levelSupported p c.level.toInt = true
  /-- R20: `SIZE` -/
  size : c.keyValid = true → c.size.toNat = (variant c.level.toInt).1
  /-- R20: `ROUNDS` -/
  rounds : c.keyValid = true → c.rounds.toNat = (variant c.level.toInt).2
  /-- R20: `len(KEY) = 8*SIZE` -/
  keyLength : c.keyValid = true → c.key.length = 8 * c.size.toNat
  /-- R20: exactly `ROUNDS` entries -/
  schedLength : c.keyValid = true → c.sched.length = c.rounds.toNat
  /-- R20: `SCHED = key_expand(LEVEL, KEY)` -/
  schedule : c.keyValid = true → c.sched = keyExpand c.level.toInt c.key

/-- The invariant of the block, in every state reached from reset. -/
structure BlockInv (s : State) : Prop where
  /-- R5 -/
  legal : s.params.Legal
  /-- R5: `NCTX >= 1` -/
  someContext : 1 ≤ s.nctx
  /-- the table set -/
  tables : TablesOk s.params s.tables
  /-- every context -/
  contexts : ∀ c ∈ s.ctxs, ContextOk s.params s.tables c

/-- The tables can be read at every index (R31): published, four of them, 1024 entries each. -/
def TableSet.Readable (T : TableSet) : Prop :=
  T.valid = true ∧ T.sbox.length = 4 ∧ ∀ col ∈ T.sbox, col.length = 1024

/-- Context `ctx` exists and holds an instance: the context. -/
def State.Keyed (s : State) (ctx : Byte) (c : Context) : Prop := s.ctxs[ctx.toNat]? = some c ∧ c.keyValid = true

/-- The block's own state, without the interface: what a failed command must leave alone (R153). -/
def State.blockState (s : State) : Config.Params × TableSet × List Context := (s.params, s.tables, s.ctxs)

/-- Whether an error's cause (R151 to R157) holds for a command in a state. -/
def applies (s : State) (i : Instr) (e : Error) : Bool :=
  match e, i with
  | .illegalCommand, i => !i.wellFormed s.limits
  | .unsupportedLevel, .keyset _ level _ => !levelSupported s.params level.toInt
  | .invalidKeyLength, .keyset _ level key => key.length != 8 * (variant level.toInt).1
  | .noKey, .enc ctx _ | .noKey, .dec ctx _ | .noKey, .decrng ctx _ _ _ | .noKey, .decall ctx _ =>
    (s.ctxs[ctx.toNat]?).any fun c => !c.keyValid
  | .invalidBlockLength, .enc _ data | .invalidBlockLength, .dec _ data => data.length != 8
  | .invalidRange, .decrng _ start stop buf =>
    decide (stop.toInt < start.toInt ∨ start.toInt < 0 ∨ (buf.length : Int) < stop.toInt)
  | _, _ => false

/-- The order of R158. The last two never apply to one command. -/
def priority : List Error :=
  [.illegalCommand, .unsupportedLevel, .invalidKeyLength, .noKey, .invalidBlockLength, .invalidRange]

/-- The pairs of errors, other than those with `IllegalCommand`, that can both apply to one command (R158). -/
def coinciding : List (Error × Error) :=
  [(.unsupportedLevel, .invalidKeyLength), (.noKey, .invalidBlockLength), (.noKey, .invalidRange)]

/-- The error a command reports: the first one of R158's order that applies. -/
def reported (s : State) (i : Instr) : Option Error := priority.find? (applies s i)

/-- The commands that only read (R43). -/
def readsOnly : Instr → Bool
  | .gfmul _ _ _ => true
  | .gfexp7 _ _ => true
  | .perm32 _ => true
  | .sbinit => false
  | .sbrd _ _ => true
  | .keyset _ _ _ => false
  | .roundf _ _ _ _ => true
  | .enc _ _ => true
  | .dec _ _ => true
  | .decrng _ _ _ _ => true
  | .decall _ _ => true
  | .stat _ => true

/-- The commands that make the tables valid before they use them (R89). -/
def needsTables : Instr → Bool
  | .gfmul _ _ _ => false
  | .gfexp7 _ _ => false
  | .perm32 _ => false
  | .sbinit => true
  | .sbrd _ _ => true
  | .keyset _ _ _ => true
  | .roundf _ _ _ _ => true
  | .enc _ _ => false
  | .dec _ _ => false
  | .decrng _ _ _ _ => false
  | .decall _ _ => false
  | .stat _ => false

/-- The opcode bytes of R53, in its order. -/
def opcode : Instr → Byte
  | .gfmul _ _ _ => 0x01
  | .gfexp7 _ _ => 0x02
  | .perm32 _ => 0x03
  | .sbinit => 0x04
  | .sbrd _ _ => 0x05
  | .keyset _ _ _ => 0x06
  | .roundf _ _ _ _ => 0x07
  | .enc _ _ => 0x08
  | .dec _ _ => 0x09
  | .decrng _ _ _ _ => 0x0A
  | .decall _ _ => 0x0B
  | .stat _ => 0x0C

/-- One iteration of the `while` loop of R70 on `(acc, a, b)`, statement by statement. -/
def gfIteration (m : Nat) (st : Nat × Nat × Nat) : Nat × Nat × Nat :=
  let acc := if st.2.2.testBit 0 = true then st.1 ^^^ st.2.1 else st.1
  let a := st.2.1 <<< 1
  let a := if a ≥ 256 then a ^^^ m else a
  (acc, a, st.2.2 >>> 1)

/-- The polynomial over GF(2) whose coefficient of `x^k` is bit `k` (R71 d). -/
noncomputable def polyOf (n : Nat) : Polynomial (ZMod 2) :=
  ∑ k ∈ Finset.range (Nat.log2 n + 1), if n.testBit k then Polynomial.X ^ k else 0

/-- The four masks of R87 (a). -/
def tableMasks : List Word := [0x82141842, 0x18428214, 0x24814128, 0x41282481]

/-- The eight entries that the forward pass of key block `i` writes. -/
def forwardEntries (key : List Byte) (i : Nat) : List Subkey := (schedBuild (keyWords key i) (blankSched 8) 0 0).1

/-- The eight entries that the tail pass of key block `i` writes, from the words its forward pass left. -/
def tailEntries (key : List Byte) (i : Nat) : List Subkey :=
  (schedBuild (schedBuild (keyWords key i) (blankSched 8) 0 0).2 (blankSched 8) 0 8).1

/-- What the helper makes of the bytes `start` to `stop` of `buf`: as long as the range, each full chunk from `start` on
decrypted alone, the remainder unchanged (R130, R131). -/
def DecryptsRange (s : State) (c : Context) (buf : List Byte) (start stop : Nat) (out : List Byte) : Prop :=
  out.length = stop - start ∧
  (∀ k, k < (stop - start) / 8 →
    decryptBlock s.tables c.sched c.rounds.toNat (slice buf (start + 8 * k) (start + 8 * k + 8)) =
      .ok (slice out (8 * k) (8 * k + 8))) ∧
  out.drop (8 * ((stop - start) / 8)) = slice buf (start + 8 * ((stop - start) / 8)) stop

end Sys2Proof.Machine
end

