-- ==== Sys2Proof/Certificates/Slice0/Obligations.lean ====
section
/-!
DEFINITION. The statements for the provers. `s.answer bs` is the state `s` with one response more, of bytes `bs`, for the
requester being served, and nothing else changed: an equation `exec i s = .next (s.answer bs)` is the result of a
command and its whole frame.
-/

open Sys2Proof Sys2Proof.Machine Host

/-! ## Frames (30_encoding.md) -/

/-- Decoding the frame of a well-formed command gives the command back, with every operand. -/
def Obligations.DecodeOfEncodeIsTheCommand : Prop :=
  ∀ (lim : Config.Limits) (i : Instr), lim.maxBuf ≤ 0x7fffffff → i.wellFormed lim = true →
    decode lim (encode i) = .ok i

/-- A frame that decodes is the frame of the command it decodes to, and that command is well-formed: no two frames mean
the same command, and no bit of a frame is ignored. -/
def Obligations.DecodedFrameIsItsEncoding : Prop :=
  ∀ (lim : Config.Limits) (f : List Byte) (i : Instr), decode lim f = .ok i →
    i.wellFormed lim = true ∧ encode i = f

/-- R54: the opcode byte selects the command by its whole value, the twelve commands being 0x01 to 0x0C in the order of
R53; a frame that starts with any other byte is answered with `IllegalCommand` and changes nothing of the block. -/
def Obligations.OpcodeSelectsTheCommand : Prop :=
  ∀ (op : Byte) (body : List Byte),
    (∀ (lim : Config.Limits) (i : Instr), decode lim (op :: body) = .ok i → op = opcode i) ∧
      (op = 0x00 ∨ 0x0D ≤ op.toNat → ∀ s s1 : State, s.resetAsked = false → s.accept = some (op :: body, s1) →
        step s = .next (s1.answer [0x05]) ∧ s1.blockState = s.blockState)

/-- A frame that is the frame of no well-formed command is answered with `IllegalCommand` (0x05) alone, and nothing of
the block changes. -/
def Obligations.MalformedFrameChangesNothing : Prop :=
  ∀ (s s1 : State) (f : List Byte), s.params.Legal → s.resetAsked = false → s.accept = some (f, s1) →
    (∀ i : Instr, i.wellFormed s.limits = true → encode i ≠ f) →
      step s = .next (s1.answer [0x05]) ∧ s1.blockState = s.blockState

/-- A must-be-zero bit that is one makes each of the four frames that have such bits (GFMUL, GFEXP7, SBRD, ROUNDF)
malformed (R53, R55). That the refusal is called `mustBeZero` is the model's choice (log entry 15): a requester sees
`IllegalCommand`, as for every malformed frame. -/
def Obligations.MustBeZeroBitsAreChecked : Prop :=
  ∀ (lim : Config.Limits),
    (∀ a b m1 m0 : Byte, 2 ≤ m1.toNat → decode lim [0x01, a, b, m1, m0] = .error .mustBeZero) ∧
    (∀ b m1 m0 : Byte, 2 ≤ m1.toNat → decode lim [0x02, b, m1, m0] = .error .mustBeZero) ∧
    (∀ t i1 i0 : Byte, 4 ≤ t.toNat ∨ 4 ≤ i1.toNat → decode lim [0x05, t, i1, i0] = .error .mustBeZero) ∧
    (∀ (p : Word) (k0 k1 k2 : Word), 2 ^ 20 ≤ k0.toNat ∨ 2 ^ 20 ≤ k1.toNat ∨ 2 ^ 20 ≤ k2.toNat →
      decode lim (0x07 :: (bytes32 p ++ bytes32 k0 ++ bytes32 k1 ++ bytes32 k2)) = .error .mustBeZero)

/-- Frames written out byte by byte from R53 decode to the commands they stand for. -/
def Obligations.SampleFramesDecode : Prop :=
  decode Config.Limits.default [0x01, 0x80, 0x02, 0x01, 0x4d] = .ok (.gfmul 0x80 0x02 333) ∧
  decode Config.Limits.default [0x05, 0x03, 0x03, 0xff] = .ok (.sbrd 3 1023) ∧
  decode Config.Limits.default [0x06, 0x00, 0xff, 0xff, 0xff, 0xff, 0x00, 0x00, 0x00, 0x02, 0xde, 0xad] =
    .ok (.keyset 0 (-1) [0xde, 0xad]) ∧
  decode Config.Limits.default [0x0a, 0x00, 0, 0, 0, 8, 0, 0, 1, 0, 0, 0, 0, 1, 0x55] =
    .ok (.decrng 0 8 256 [0x55])

/-! ## A step -/

/-- A step runs the decoded command: when the frame of the next command decodes to `i`, the step is `exec i` in the state
in which that command has left the pending ones and its requester is being served. -/
def Obligations.StepRunsTheDecodedCommand : Prop :=
  ∀ (s s1 : State) (f : List Byte) (i : Instr), s.resetAsked = false → s.accept = some (f, s1) →
    decode s.limits f = .ok i →
      step s = exec i s1 ∧ s1.blockState = s.blockState ∧ s1.responses = s.responses ∧
        { requester := s1.serving, frame := f } ∈ s.pending

/-- R166: between commands the block is idle and keeps all its state. -/
def Obligations.IdleBlockKeepsItsState : Prop :=
  ∀ s : State, s.resetAsked = false → s.pending = [] → step s = .next s

/-- Every command is answered by exactly one response, to the requester that presented it: a status byte of R150 and,
unless it is `OK`, nothing else. The request answered is the one that the step accepts, and it alone leaves the pending
ones. -/
def Obligations.EveryCommandIsAnsweredOnce : Prop :=
  ∀ s : State, BlockInv s → s.resetAsked = false → s.pending ≠ [] →
    ∃ (s1 t : State) (q : Request) (before after : List Request) (status : Byte) (rest : List Byte),
      s.accept = some (q.frame, s1) ∧ s1.serving = q.requester ∧
      s.pending = before ++ q :: after ∧ step s = .next t ∧ t.pending = before ++ after ∧
      t.responses = s.responses ++ [{ requester := q.requester, bytes := status :: rest }] ∧
      status.toNat ≤ 6 ∧ (status ≠ 0 → rest = [])

/-- The order of R40 keeps each requester's own order: the command accepted is its requester's oldest, and the others
stay as they were. -/
def Obligations.RequesterOrderIsKept : Prop :=
  ∀ (s t : State) (f : List Byte), s.accept = some (f, t) →
    (s.pending.filter fun q => q.requester = t.serving) =
        { requester := t.serving, frame := f } :: (t.pending.filter fun q => q.requester = t.serving) ∧
      ∀ r, r ≠ t.serving →
        (t.pending.filter fun q => q.requester = r) = s.pending.filter fun q => q.requester = r

/-- The order of R40 is not determined: whichever requester has a command pending, some choice makes it the next. -/
def Obligations.AnyRequesterMayBeNext : Prop :=
  ∀ (s : State) (q : Request), q ∈ s.pending →
    ∃ (order : List Nat) (f : List Byte) (t : State),
      State.accept { s with order := order } = some (f, t) ∧ t.serving = q.requester

/-! ## Reset and the invariant -/

/-- R28: the state after reset, for both values of `SBOX_ROM`. An entry of `SBOX` or `SCHED` whose reset value the rule
leaves unspecified is not spoken of. -/
def Obligations.ResetValues : Prop :=
  ∀ (p : Config.Params) (n : Nat),
    (State.resetWith p n).nctx = n ∧
    (State.resetWith p n).tables.valid = p.sboxRom ∧
    (State.resetWith p n).tables.builds = 0 ∧
    (p.sboxRom = true → ∀ t i, (State.resetWith p n).tables.read t i = .ok (sboxEntry t i)) ∧
    ∀ c ∈ (State.resetWith p n).ctxs,
      c.keyValid = false ∧ c.level = 0 ∧ c.size = 0 ∧ c.rounds = 0 ∧ c.key = []

/-- The reset event puts the block in its reset state and abandons every command presented; what was answered stays
answered (the model's interface, log entries 2 and 6; R170). -/
def Obligations.ResetEventGivesTheResetState : Prop :=
  ∀ s : State, s.resetAsked = true →
    step s = .next { State.resetWith s.params s.nctx with responses := s.responses }

/-- The reset state satisfies the invariant, for every legal choice of parameters. -/
def Obligations.ResetSatisfiesTheInvariant : Prop :=
  BlockInv State.reset ∧ ∀ (p : Config.Params) (n : Nat), p.Legal → 1 ≤ n → BlockInv (State.resetWith p n)

/-- Every step keeps the invariant of R12, R20 and R27. -/
def Obligations.EveryStepKeepsTheInvariant : Prop :=
  ∀ s t : State, BlockInv s → step s = .next t → BlockInv t

/-- No step stops in a state that satisfies the invariant: the reads that have no value are never made (R31, R32), and
every command ends (R181). -/
def Obligations.NoStepStops : Prop :=
  ∀ s : State, BlockInv s → ∃ t, step s = .next t

/-- The table space keeps its canonical form, in every state. -/
def Obligations.TableSpaceKeepsItsForm : Prop :=
  ∀ s t : State, Memory.wf s.tables.sbox = true → step s = .next t → Memory.wf t.tables.sbox = true

/-- Reset is the only event that clears `SBOX_VALID`, `SBOX_BUILDS` or a `KEY_VALID`; and valid tables are never written
again (R11). No step changes a parameter or the number of contexts: that they stand in the state is the model's choice
(log entry 1), and this says that they are constants there too. -/
def Obligations.OnlyResetClears : Prop :=
  ∀ s t : State, step s = .next t →
    t.params = s.params ∧ t.nctx = s.nctx ∧
    (s.resetAsked = false →
      (s.tables.valid = true → t.tables = s.tables) ∧
      (∀ (k : Nat) (c : Context), s.ctxs[k]? = some c → c.keyValid = true →
        ∃ d, t.ctxs[k]? = some d ∧ d.keyValid = true))

/-- R29: only the build writes the table set, and only the commands that need the tables start it, once; only a
successful KEYSET of a context writes that context, all fields together; every other command, and every command that
fails, leaves all of it as it was. -/
def Obligations.OnlyBuildAndKeysetWrite : Prop :=
  ∀ (i : Instr) (s t : State), exec i s = .next t →
    (t.tables = s.tables ∨
      (s.tables.valid = false ∧ needsTables i = true ∧ t.tables = buildTables s.tables)) ∧
    (t.ctxs = s.ctxs ∨
      ∃ (ctx : Byte) (level : Word) (key : List Byte) (c : Context), i = .keyset ctx level key ∧
        ctx.toNat < s.nctx ∧ t.ctxs = s.ctxs.set ctx.toNat c ∧ c.keyValid = true ∧ c.level = level ∧ c.key = key ∧
        c.size = BitVec.ofNat 32 (variant level.toInt).1 ∧ c.rounds = BitVec.ofNat 32 (variant level.toInt).2 ∧
        c.sched = keyExpand level.toInt key ∧
        t.responses = s.responses ++ [{ requester := s.serving, bytes := [0x00] }]) ∧
    (∀ b, t.responses = s.responses ++ [{ requester := s.serving, bytes := [b] }] → b ≠ 0x00 →
      t.blockState = s.blockState)

/-! ## Errors (60_exceptions.md) -/

/-- R153: a command that ends with an error answers the status byte alone and writes nothing else at all. -/
def Obligations.FailedCommandWritesNothing : Prop :=
  ∀ (i : Instr) (s t : State) (b : Byte) (rest : List Byte), exec i s = .next t →
    t.responses = s.responses ++ [{ requester := s.serving, bytes := b :: rest }] → b ≠ 0x00 →
      rest = [] ∧ t = s.answer [b]

/-- R158: of the errors that apply the first in the rule's order is reported, a command to which none applies reports
none, and only the pairs that the rule names can coincide. The commands here are typed values: that one which no frame can
carry is answered with `IllegalCommand` is the model's reading of R55 and R156 (log entry 8). -/
def Obligations.FirstApplicableErrorIsReported : Prop :=
  ∀ (i : Instr) (s : State),
    (∀ e, reported s i = some e → exec i s = .next (s.answer [e.code])) ∧
    (reported s i = none → ∀ t, exec i s = .next t →
      ∃ rest, t.responses = s.responses ++ [{ requester := s.serving, bytes := 0x00 :: rest }]) ∧
    ∀ e f, applies s i e = true → applies s i f = true → e ≠ f →
      e = .illegalCommand ∨ f = .illegalCommand ∨ (e, f) ∈ coinciding ∨ (f, e) ∈ coinciding

/-- R151: KEYSET answers `InvalidKeyLength` (0x01), in a context that exists and for a level it supports, exactly when
the key has not `8*size` bytes. -/
def Obligations.InvalidKeyLengthCause : Prop :=
  ∀ (s : State) (ctx : Byte) (level : Word) (key : List Byte), ctx.toNat < s.nctx →
    key.length ≤ s.params.maxBuf → levelSupported s.params level.toInt = true →
      (exec (.keyset ctx level key) s = .next (s.answer [0x01]) ↔
        key.length ≠ 8 * (if level.toInt < 1 then 1 else level.toInt.toNat))

/-- R152: ENC and DEC answer `InvalidBlockLength` (0x02), on a context that holds an instance, exactly when the operand
has not 8 bytes. -/
def Obligations.InvalidBlockLengthCause : Prop :=
  ∀ (s : State) (ctx : Byte) (c : Context) (data : List Byte), s.Keyed ctx c → data.length ≤ s.params.maxBuf →
    (exec (.enc ctx data) s = .next (s.answer [0x02]) ↔ data.length ≠ 8) ∧
    (exec (.dec ctx data) s = .next (s.answer [0x02]) ↔ data.length ≠ 8)

/-- R154: DECRNG answers `InvalidRange` (0x03), on a context that holds an instance, exactly when `from > to`, `from < 0`
or `to > len(buf)`; DECALL never does, in any state. -/
def Obligations.InvalidRangeCause : Prop :=
  ∀ (s : State) (ctx : Byte) (start stop : Word) (buf : List Byte),
    (∀ c, s.Keyed ctx c → buf.length ≤ s.params.maxBuf →
      (exec (.decrng ctx start stop buf) s = .next (s.answer [0x03]) ↔
        start.toInt > stop.toInt ∨ start.toInt < 0 ∨ stop.toInt > (buf.length : Int))) ∧
    exec (.decall ctx buf) s ≠ .next (s.answer [0x03])

/-- R155: ENC, DEC, DECRNG and DECALL answer `NoKey` (0x04) exactly when the context holds no instance. -/
def Obligations.NoKeyCause : Prop :=
  ∀ (s : State) (ctx : Byte) (c : Context) (start stop : Word) (data : List Byte),
    s.ctxs[ctx.toNat]? = some c → data.length ≤ s.params.maxBuf →
      (exec (.enc ctx data) s = .next (s.answer [0x04]) ↔ c.keyValid = false) ∧
      (exec (.dec ctx data) s = .next (s.answer [0x04]) ↔ c.keyValid = false) ∧
      (exec (.decrng ctx start stop data) s = .next (s.answer [0x04]) ↔ c.keyValid = false) ∧
      (exec (.decall ctx data) s = .next (s.answer [0x04]) ↔ c.keyValid = false)

/-- R157: KEYSET answers `UnsupportedLevel` (0x06) exactly when `MAXLEVEL` is a number and the level is greater; so
never when it is `UNBOUNDED`, and never for the thin variant. -/
def Obligations.UnsupportedLevelCause : Prop :=
  ∀ (s : State) (ctx : Byte) (level : Word) (key : List Byte), s.params.Legal → ctx.toNat < s.nctx →
    key.length ≤ s.params.maxBuf →
      (exec (.keyset ctx level key) s = .next (s.answer [0x06]) ↔
        ∃ n, s.params.maxLevel = some n ∧ level.toInt > (n : Int)) ∧
      (s.params.maxLevel = none ∨ level.toInt < 1 → exec (.keyset ctx level key) s ≠ .next (s.answer [0x06]))

/-! ## Field arithmetic (40_field_arithmetic.md) -/

/-- GFMUL completes on every operand, with the value of R70 in 64 bits; the value is below `2^15`, so nothing is lost. -/
def Obligations.GfmulCompletes : Prop :=
  ∀ (a b : Byte) (m : BitVec 9) (s : State),
    ∃ v : DWord, v.toNat = gfMult a.toNat b.toNat m.toNat ∧ v.toNat < 2 ^ 15 ∧
      exec (.gfmul a b m) s = .next (s.answer (0x00 :: bytes64 v))

/-- R70: on all natural numbers `gf_mult` is the accumulator that the rule's `while` loop leaves: the loop, begun with
`acc = 0`, goes on while `b` is not 0 and ends after finitely many iterations. -/
def Obligations.GfMultIsTheLoopOfItsRule : Prop :=
  ∀ a b m : Nat, ∃ n : Nat,
    (∀ k, k < n → ((gfIteration m)^[k] (0, a, b)).2.2 ≠ 0) ∧ ((gfIteration m)^[n] (0, a, b)).2.2 = 0 ∧
      ((gfIteration m)^[n] (0, a, b)).1 = gfMult a b m

/-- With a modulus of degree 8 and an 8-bit `a`, `gf_mult` is the product of polynomials over GF(2) modulo `m`, of degree
below 8; for 8-bit operands it is symmetric. The spec marks this as its inference from R70 (R71 d). -/
def Obligations.GfMultIsTheFieldProduct : Prop :=
  ∀ a b m : Nat, a < 256 → 256 ≤ m → m < 512 →
    gfMult a b m < 256 ∧ (∃ q, polyOf a * polyOf b = polyOf (gfMult a b m) + q * polyOf m) ∧
      (b < 256 → gfMult a b m = gfMult b a m)

/-- GFEXP7 completes on every operand, with the value of R73 in 64 bits; the value is below `2^50`, and 0 for 0. -/
def Obligations.Gfexp7Completes : Prop :=
  ∀ (b : Byte) (m : BitVec 9) (s : State),
    ∃ v : DWord, v.toNat = gfExp7 b.toNat m.toNat ∧ v.toNat < 2 ^ 50 ∧ (b = 0 → v = 0) ∧
      exec (.gfexp7 b m) s = .next (s.answer (0x00 :: bytes64 v))

/-- With a modulus of degree 8, `gf_exp7` is the seventh power of the polynomial modulo `m`. The spec marks this as its
inference (R74 c). -/
def Obligations.GfExp7IsTheSeventhPower : Prop :=
  ∀ b m : Nat, b < 256 → 256 ≤ m → m < 512 →
    gfExp7 b m < 256 ∧ ∃ q, polyOf b ^ 7 = polyOf (gfExp7 b m) + q * polyOf m

/-! ## The permutation and the tables (41_sbox.md) -/

/-- PERM32 completes on every operand; bit `i` of the operand is bit `PPOS[i]` of the result, and `PPOS` is a permutation
of the 32 bit positions. -/
def Obligations.Perm32MovesEachBit : Prop :=
  ppos.Perm (List.range 32) ∧
  ∀ (x : Word) (s : State),
    ∃ r : Word, (∀ k, k < 32 → r.getLsbD (ppos.getD k 0) = x.getLsbD k) ∧
      exec (.perm32 x) s = .next (s.answer (0x00 :: bytes32 r))

/-- R88, R90: SBINIT builds the tables when they are not valid: every entry at the value of R86, the publish flag and the
counter with them. When they are valid it does nothing. -/
def Obligations.SbinitBuildsOnce : Prop :=
  ∀ s : State,
    (s.tables.valid = true → exec .sbinit s = .next (s.answer [0x00])) ∧
    (s.tables.valid = false →
      ∃ T : TableSet, (∀ t i, T.read t i = .ok (sboxEntry t i)) ∧ T.valid = true ∧
        T.builds = s.tables.builds + 1 ∧
        exec .sbinit s = .next (State.answer { s with tables := T } [0x00]))

/-- SBRD completes and reads `sbox_entry(t, i)` whatever came before; if it is the first user it builds the tables. -/
def Obligations.SbrdReadsTheEntry : Prop :=
  ∀ (t : BitVec 2) (i : BitVec 10) (s : State), BlockInv s →
    exec (.sbrd t i) s =
      .next (State.answer { s with tables := if s.tables.valid then s.tables else buildTables s.tables }
        (0x00 :: bytes32 (sboxEntry t i)))

/-- Every entry of table `t` has ones only inside the mask of that table, and the four masks split the 32 bits. The spec
marks this as its inference from R86 (R87 a). -/
def Obligations.EntriesLieInTheirMask : Prop :=
  (∀ (t : BitVec 2) (i : BitVec 10), sboxEntry t i &&& ~~~ (tableMasks.getD t.toNat 0) = 0) ∧
  (tableMasks.Pairwise fun a b => a &&& b = 0) ∧ tableMasks.foldl (· ||| ·) 0 = 0xffffffff

/-- A table read is defined exactly while the tables are published and hold the entry, in every state (R31); the model
stops on every other one. -/
def Obligations.TableReadNeedsPublishedTables : Prop :=
  ∀ (T : TableSet) (t : BitVec 2) (i : BitVec 10),
    (T.valid = false → T.read t i = .error .tableUnwritten) ∧
    (∀ v, T.read t i = .ok v ↔ T.valid = true ∧ ∃ col, T.sbox[t.toNat]? = some col ∧ col[i.toNat]? = some v)

/-! ## The key schedule (42_key_schedule.md) -/

/-- KEYSET completes for a context that exists, a level that is supported and a key of `8*size` bytes: it makes the tables
valid and writes all six fields of the context, `SIZE` and `ROUNDS` without loss. -/
def Obligations.KeysetWritesTheContext : Prop :=
  ∀ (s : State) (ctx : Byte) (level : Word) (key : List Byte), s.params.Legal → ctx.toNat < s.nctx →
    key.length ≤ s.params.maxBuf → levelSupported s.params level.toInt = true →
    key.length = 8 * (variant level.toInt).1 →
      ∃ c : Context, c.keyValid = true ∧ c.level = level ∧ c.size.toNat = (variant level.toInt).1 ∧
        c.rounds.toNat = (variant level.toInt).2 ∧ c.key = key ∧ c.sched = keyExpand level.toInt key ∧
        c.sched.length = (variant level.toInt).2 ∧
        exec (.keyset ctx level key) s =
          .next (State.answer
            { s with
              tables := if s.tables.valid then s.tables else buildTables s.tables
              ctxs := s.ctxs.set ctx.toNat c } [0x00])

/-- A pass writes its eight entries and no other; what it writes and the words it leaves depend on the words and the
offset alone. The spec marks this as its inference from R98 (R99 e). -/
def Obligations.PassWritesEightEntries : Prop :=
  ∀ (kb : KeyWords) (sched : List Subkey) (n off : Nat), n + 8 ≤ sched.length →
    (schedBuild kb sched n off).2 = (schedBuild kb (blankSched 8) 0 off).2 ∧
    ∀ k, (schedBuild kb sched n off).1[k]? =
      if n ≤ k ∧ k < n + 8 then (schedBuild kb (blankSched 8) 0 off).1[k - n]? else sched[k]?

/-- The general schedule is the forward entries of all blocks in order, then the tail entries of all blocks in reverse
order: every entry written exactly once. The spec marks this as its inference from R101 (R102). -/
def Obligations.GeneralScheduleTiles : Prop :=
  ∀ (key : List Byte) (size : Nat),
    keyExpandGeneral key size (16 * size) =
      (List.range size).flatMap (forwardEntries key) ++ (List.range size).reverse.flatMap (tailEntries key)

/-- A key word after one pass and after two (the spec's inference from R98, R99 c): after one its upper byte is the lower
byte of the word and its lower byte the complement of the upper one; after two it is the complement of the word. -/
def Obligations.TwoPassesComplementTheWords : Prop :=
  ∀ (kb : KeyWords) (sched : List Subkey) (n m : Nat),
    let once := (schedBuild kb sched n 0).2
    let twice := (schedBuild once sched m 8).2
    (once.w0 = kb.w0.extractLsb' 0 8 ++ ~~~ (kb.w0.extractLsb' 8 8) ∧
      once.w1 = kb.w1.extractLsb' 0 8 ++ ~~~ (kb.w1.extractLsb' 8 8) ∧
      once.w2 = kb.w2.extractLsb' 0 8 ++ ~~~ (kb.w2.extractLsb' 8 8) ∧
      once.w3 = kb.w3.extractLsb' 0 8 ++ ~~~ (kb.w3.extractLsb' 8 8)) ∧
    twice = { w0 := ~~~ kb.w0, w1 := ~~~ kb.w1, w2 := ~~~ kb.w2, w3 := ~~~ kb.w3 }

/-- The thin schedule of a key is the first eight entries of its level-1 schedule (the spec's inference, R102), and so the
thin cipher is the first eight rounds of the level-1 cipher (R125 b). -/
def Obligations.ThinCipherIsEightRoundsOfLevelOne : Prop :=
  ∀ (key : List Byte) (level : Int), level < 1 →
    keyExpand level key = (keyExpand 1 key).take 8 ∧
    ∀ (T : TableSet) (data : List Byte),
      encryptBlock T (keyExpand 1 key) 8 data = encryptBlock T (keyExpand level key) 8 data

/-! ## The round function (43_round_function.md) -/

/-- R110, bit by bit: `tl = {p[1:0], p[31:24], p[25:16]}` and `tr = {p[17:8], p[9:0]}`. -/
def Obligations.ExpandBitByBit : Prop :=
  ∀ p : Word, expand p =
    (p.extractLsb' 0 2 ++ p.extractLsb' 24 8 ++ p.extractLsb' 16 10, p.extractLsb' 8 10 ++ p.extractLsb' 0 10)

/-- Lane 2 selects: where its bit is 1 the bits of `tl` and `tr` change places (the spec's inference from R111). -/
def Obligations.LaneTwoSelects : Prop :=
  ∀ (tl tr : Lane) (sk : Subkey) (k : Nat), k < 20 →
    (mix tl tr sk).1.getLsbD k = ((if sk.l2.getLsbD k then tr.getLsbD k else tl.getLsbD k) ^^ sk.l0.getLsbD k) ∧
    (mix tl tr sk).2.getLsbD k = ((if sk.l2.getLsbD k then tl.getLsbD k else tr.getLsbD k) ^^ sk.l1.getLsbD k)

/-- Complementing the input and lanes 0 and 1 leaves the round function's value as it is, for every content of the tables
(the spec's inference, R114 e). -/
def Obligations.RoundIgnoresComplement : Prop :=
  ∀ (T : TableSet) (p : Word) (s0 s1 s2 : Lane),
    roundF T (~~~ p) { l0 := ~~~ s0, l1 := ~~~ s1, l2 := s2 } = roundF T p { l0 := s0, l1 := s1, l2 := s2 }

/-- ROUNDF completes; its result is the OR of four entries of R86, at the indices that R110 and R111 give; if it is the
first user it builds the tables. -/
def Obligations.RoundfOrsFourEntries : Prop :=
  ∀ (p : Word) (sk0 sk1 sk2 : Lane) (s : State), BlockInv s →
    let tl : Lane := p.extractLsb' 0 2 ++ p.extractLsb' 24 8 ++ p.extractLsb' 16 10
    let tr : Lane := p.extractLsb' 8 10 ++ p.extractLsb' 0 10
    let al : Lane := (sk2 &&& (tl ^^^ tr)) ^^^ tl ^^^ sk0
    let ar : Lane := (sk2 &&& (tl ^^^ tr)) ^^^ tr ^^^ sk1
    exec (.roundf p sk0 sk1 sk2) s =
      .next (State.answer { s with tables := if s.tables.valid then s.tables else buildTables s.tables }
        (0x00 :: bytes32 (sboxEntry 0 (al.extractLsb' 10 10) ||| sboxEntry 1 (al.extractLsb' 0 10) |||
          sboxEntry 2 (ar.extractLsb' 10 10) ||| sboxEntry 3 (ar.extractLsb' 0 10))))

/-! ## The block engine (44_block_engine.md) -/

/-- R122: for every schedule, every even number of rounds and every block, decryption undoes encryption and encryption
undoes decryption, whatever the tables hold. -/
def Obligations.DecryptionAndEncryptionInvert : Prop :=
  ∀ (T : TableSet) (sched : List Subkey) (rounds : Nat) (x : List Byte), T.Readable → Even rounds →
    sched.length = rounds → x.length = 8 →
      (∃ y, y.length = 8 ∧ encryptBlock T sched rounds x = .ok y ∧ decryptBlock T sched rounds y = .ok x) ∧
      (∃ z, z.length = 8 ∧ decryptBlock T sched rounds x = .ok z ∧ encryptBlock T sched rounds z = .ok x)

/-- ENC completes on every 8-byte operand under a context that holds an instance. -/
def Obligations.EncCompletes : Prop :=
  ∀ (s : State) (ctx : Byte) (c : Context) (data : List Byte), BlockInv s → s.Keyed ctx c → data.length = 8 →
    ∃ y, encryptBlock s.tables c.sched c.rounds.toNat data = .ok y ∧ y.length = 8 ∧
      exec (.enc ctx data) s = .next (s.answer (0x00 :: y))

/-- DEC completes on every 8-byte operand under a context that holds an instance. -/
def Obligations.DecCompletes : Prop :=
  ∀ (s : State) (ctx : Byte) (c : Context) (data : List Byte), BlockInv s → s.Keyed ctx c → data.length = 8 →
    ∃ y, decryptBlock s.tables c.sched c.rounds.toNat data = .ok y ∧ y.length = 8 ∧
      exec (.dec ctx data) s = .next (s.answer (0x00 :: y))

/-- What ENC answers, DEC takes back to the operand, in every later state in which the block's own state is the same;
and the other way round. -/
def Obligations.DecUndoesEnc : Prop :=
  ∀ (s : State) (ctx : Byte) (c : Context) (data : List Byte), BlockInv s → s.Keyed ctx c → data.length = 8 →
    (∃ y, exec (.enc ctx data) s = .next (s.answer (0x00 :: y)) ∧
      ∀ u : State, u.blockState = s.blockState → exec (.dec ctx y) u = .next (u.answer (0x00 :: data))) ∧
    (∃ z, exec (.dec ctx data) s = .next (s.answer (0x00 :: z)) ∧
      ∀ u : State, u.blockState = s.blockState → exec (.enc ctx z) u = .next (u.answer (0x00 :: data)))

/-! ## The buffer helper (45_buffer_helper.md) -/

/-- DECRNG completes on every range inside the buffer. -/
def Obligations.DecrngDecryptsChunksAndPassesTheRest : Prop :=
  ∀ (s : State) (ctx : Byte) (c : Context) (start stop : Word) (buf : List Byte), BlockInv s → s.Keyed ctx c →
    buf.length ≤ s.params.maxBuf → 0 ≤ start.toInt → start.toInt ≤ stop.toInt → stop.toInt ≤ (buf.length : Int) →
      ∃ out, DecryptsRange s c buf start.toNat stop.toNat out ∧
        exec (.decrng ctx start stop buf) s =
          .next (s.answer (0x00 :: (bytes32 (BitVec.ofNat 32 out.length) ++ out)))

/-- DECALL completes on every buffer. -/
def Obligations.DecallDecryptsTheWholeBuffer : Prop :=
  ∀ (s : State) (ctx : Byte) (c : Context) (buf : List Byte), BlockInv s → s.Keyed ctx c →
    buf.length ≤ s.params.maxBuf →
      ∃ out, DecryptsRange s c buf 0 buf.length out ∧
        exec (.decall ctx buf) s = .next (s.answer (0x00 :: (bytes32 (BitVec.ofNat 32 out.length) ++ out)))

/-- DECALL gives the response that DECRNG gives on the whole buffer, always (R133); as typed values, also where no frame
carries them (log entry 8). -/
def Obligations.DecallIsDecrngOfTheWholeBuffer : Prop :=
  ∀ (s : State) (ctx : Byte) (buf : List Byte), s.params.Legal →
    exec (.decall ctx buf) s = exec (.decrng ctx 0 (BitVec.ofNat 32 buf.length) buf) s

/-! ## The status read (46_system.md) -/

/-- STAT completes on every context that exists, keyed or not; it changes nothing and starts no build. -/
def Obligations.StatReportsTheSixElements : Prop :=
  ∀ (s : State) (ctx : Byte) (c : Context), s.ctxs[ctx.toNat]? = some c →
    exec (.stat ctx) s =
      .next (s.answer ([0x00, if s.tables.valid then 0x01 else 0x00] ++ bytes32 s.tables.builds ++
        [if c.keyValid then 0x01 else 0x00] ++ bytes32 c.level ++ bytes32 c.size ++ bytes32 c.rounds))

/-! ## The whole block -/

/-- R43: once the tables are valid, commands that only read commute: neither changes what the other answers. -/
def Obligations.ReadingCommandsCommute : Prop :=
  ∀ (i j : Instr) (s t u : State), s.tables.valid = true → readsOnly i = true → readsOnly j = true →
    exec i s = .next t → exec j s = .next u →
      ∃ bi bj, t = s.answer bi ∧ u = s.answer bj ∧ exec j t = .next (t.answer bj) ∧ exec i u = .next (u.answer bi)

/-- A command on one context does not depend on any other context, nor change one: ENC, DEC, DECRNG, DECALL and STAT answer
the same whatever the other contexts hold; so does KEYSET, which leaves its own context and the tables the same, and every
other context as it was. -/
def Obligations.ContextsDoNotInterfere : Prop :=
  ∀ (s u : State) (ctx : Byte) (start stop level : Word) (data : List Byte), s.params = u.params →
    s.tables = u.tables → s.nctx = u.nctx → s.ctxs[ctx.toNat]? = u.ctxs[ctx.toNat]? →
      (∀ i ∈ [Instr.enc ctx data, .dec ctx data, .decrng ctx start stop data, .decall ctx data, .stat ctx],
        ∀ bs, exec i s = .next (s.answer bs) ↔ exec i u = .next (u.answer bs)) ∧
      ∃ (s' u' : State) (bs : List Byte), exec (.keyset ctx level data) s = .next s' ∧
        exec (.keyset ctx level data) u = .next u' ∧
        s'.responses = s.responses ++ [{ requester := s.serving, bytes := bs }] ∧
        u'.responses = u.responses ++ [{ requester := u.serving, bytes := bs }] ∧
        s'.tables = u'.tables ∧ s'.ctxs[ctx.toNat]? = u'.ctxs[ctx.toNat]? ∧
        ∀ k, k ≠ ctx.toNat → s'.ctxs[k]? = s.ctxs[k]? ∧ u'.ctxs[k]? = u.ctxs[k]?

/-- R92: a block whose tables are constants holds them from reset on, with the values of R86, and never builds them; it
and a block that builds them give the same response to every command but STAT, and keep the same contexts; STAT's answers
differ in `sbox_valid` before the first use, and in `sbox_builds`, only: in their byte 1, and in their bytes 2 to 5. -/
def Obligations.RomAndLazyTablesAnswerAlike : Prop :=
  ∀ (i : Instr) (lazy rom : State), BlockInv lazy → BlockInv rom → lazy.params.sboxRom = false →
    rom.params = { lazy.params with sboxRom := true } → rom.ctxs = lazy.ctxs → rom.serving = lazy.serving →
      rom.tables = (State.resetWith rom.params rom.nctx).tables ∧ rom.tables.valid = true ∧
      (∀ t i, rom.tables.read t i = .ok (sboxEntry t i)) ∧
      ∃ (lazy' rom' : State) (a b : List Byte), exec i lazy = .next lazy' ∧ exec i rom = .next rom' ∧
        lazy'.responses = lazy.responses ++ [{ requester := lazy.serving, bytes := a }] ∧
        rom'.responses = rom.responses ++ [{ requester := rom.serving, bytes := b }] ∧
        rom'.tables = rom.tables ∧ rom'.ctxs = lazy'.ctxs ∧
        ((∀ ctx, i ≠ .stat ctx) → a = b) ∧
        a.take 1 = b.take 1 ∧ a.drop 6 = b.drop 6 ∧ (lazy.tables.valid = true → a.take 2 = b.take 2)
end

