-- ==== Sys2Proof/Laws/State.lean ====
section
/-!
SUPPORT. One lemma per field per update of the state, true by rfl, so that no later proof unfolds a record update.
`finish` and `raise` are rewritten to `answer`, the one spelling of ending a command.
-/

namespace Sys2Proof.Machine

variable (s : State)

@[simp] theorem finish_eq_answer (r : Result) : s.finish r = s.answer (okBytes r) := rfl
@[simp] theorem raise_eq_answer (e : Error) : s.raise e = s.answer (errorBytes e) := rfl

@[simp] theorem answer_params (bs : List Byte) : (s.answer bs).params = s.params := rfl
@[simp] theorem answer_tables (bs : List Byte) : (s.answer bs).tables = s.tables := rfl
@[simp] theorem answer_ctxs (bs : List Byte) : (s.answer bs).ctxs = s.ctxs := rfl
@[simp] theorem answer_pending (bs : List Byte) : (s.answer bs).pending = s.pending := rfl
@[simp] theorem answer_order (bs : List Byte) : (s.answer bs).order = s.order := rfl
@[simp] theorem answer_serving (bs : List Byte) : (s.answer bs).serving = s.serving := rfl
@[simp] theorem answer_resetAsked (bs : List Byte) : (s.answer bs).resetAsked = s.resetAsked := rfl
@[simp] theorem answer_responses (bs : List Byte) :
    (s.answer bs).responses = s.responses ++ [{ requester := s.serving, bytes := bs }] := rfl
@[simp] theorem answer_nctx (bs : List Byte) : (s.answer bs).nctx = s.nctx := rfl
@[simp] theorem answer_limits (bs : List Byte) : (s.answer bs).limits = s.limits := rfl
@[simp] theorem answer_blockState (bs : List Byte) : (s.answer bs).blockState = s.blockState := rfl

@[simp] theorem ensureTables_params : s.ensureTables.params = s.params := rfl
@[simp] theorem ensureTables_tables : s.ensureTables.tables = ensureSbox s.tables := rfl
@[simp] theorem ensureTables_ctxs : s.ensureTables.ctxs = s.ctxs := rfl
@[simp] theorem ensureTables_pending : s.ensureTables.pending = s.pending := rfl
@[simp] theorem ensureTables_order : s.ensureTables.order = s.order := rfl
@[simp] theorem ensureTables_serving : s.ensureTables.serving = s.serving := rfl
@[simp] theorem ensureTables_resetAsked : s.ensureTables.resetAsked = s.resetAsked := rfl
@[simp] theorem ensureTables_responses : s.ensureTables.responses = s.responses := rfl
@[simp] theorem ensureTables_nctx : s.ensureTables.nctx = s.nctx := rfl
@[simp] theorem ensureTables_limits : s.ensureTables.limits = s.limits := rfl

variable (ctx : Byte) (c : Context)

@[simp] theorem setContext_params : (s.setContext ctx c).params = s.params := rfl
@[simp] theorem setContext_tables : (s.setContext ctx c).tables = s.tables := rfl
@[simp] theorem setContext_ctxs : (s.setContext ctx c).ctxs = s.ctxs.set ctx.toNat c := rfl
@[simp] theorem setContext_pending : (s.setContext ctx c).pending = s.pending := rfl
@[simp] theorem setContext_order : (s.setContext ctx c).order = s.order := rfl
@[simp] theorem setContext_serving : (s.setContext ctx c).serving = s.serving := rfl
@[simp] theorem setContext_resetAsked : (s.setContext ctx c).resetAsked = s.resetAsked := rfl
@[simp] theorem setContext_responses : (s.setContext ctx c).responses = s.responses := rfl
@[simp] theorem setContext_nctx : (s.setContext ctx c).nctx = s.nctx := by simp [State.nctx]

variable (r : Nat) (f : List Byte)

@[simp] theorem present_params : (s.present r f).params = s.params := rfl
@[simp] theorem present_tables : (s.present r f).tables = s.tables := rfl
@[simp] theorem present_ctxs : (s.present r f).ctxs = s.ctxs := rfl
@[simp] theorem present_pending : (s.present r f).pending = s.pending ++ [{ requester := r, frame := f }] := rfl
@[simp] theorem present_order : (s.present r f).order = s.order := rfl
@[simp] theorem present_serving : (s.present r f).serving = s.serving := rfl
@[simp] theorem present_resetAsked : (s.present r f).resetAsked = s.resetAsked := rfl
@[simp] theorem present_responses : (s.present r f).responses = s.responses := rfl

@[simp] theorem doReset_params : s.doReset.params = s.params := rfl
@[simp] theorem doReset_tables : s.doReset.tables = TableSet.atReset s.params.sboxRom := rfl
@[simp] theorem doReset_ctxs : s.doReset.ctxs = List.replicate s.nctx Context.empty := rfl
@[simp] theorem doReset_pending : s.doReset.pending = [] := rfl
@[simp] theorem doReset_order : s.doReset.order = [] := rfl
@[simp] theorem doReset_serving : s.doReset.serving = 0 := rfl
@[simp] theorem doReset_responses : s.doReset.responses = s.responses := rfl
@[simp] theorem doReset_resetAsked : s.doReset.resetAsked = false := rfl
@[simp] theorem doReset_nctx : s.doReset.nctx = s.nctx := by simp [State.nctx]

end Sys2Proof.Machine
end

