-- ==== Sys2Proof/Laws/Memory.lean ====
section
/-!
SUPPORT. The table space: its canonical form is kept by every operation on it, and what a read gives.
-/

namespace Sys2Proof.Machine

theorem builtTables_wf : Memory.wf builtTables = true := by simp [Memory.wf, builtTables]

theorem atReset_wf (rom : Bool) : Memory.wf (TableSet.atReset rom).sbox = true := by
  cases rom
  · rfl
  · exact builtTables_wf

theorem reset_memory_wf : Memory.wf State.reset.tables.sbox = true := atReset_wf false

theorem buildTables_wf (T : TableSet) : Memory.wf (buildTables T).sbox = true := builtTables_wf

theorem ensureSbox_wf {T : TableSet} (h : Memory.wf T.sbox = true) : Memory.wf (ensureSbox T).sbox = true := by
  unfold ensureSbox
  split
  · exact h
  · exact buildTables_wf T

/-- Every entry is there after a build, at the value of R86. -/
theorem read_builtTables (t : BitVec 2) (i : BitVec 10) : Memory.read builtTables t i = some (sboxEntry t i) := by
  have ht : t.toNat < 4 := t.isLt
  have hi : i.toNat < 1024 := i.isLt
  simp [Memory.read, builtTables, ht, hi]

@[simp] theorem buildTables_valid (T : TableSet) : (buildTables T).valid = true := rfl
@[simp] theorem buildTables_sbox (T : TableSet) : (buildTables T).sbox = builtTables := rfl
@[simp] theorem buildTables_builds (T : TableSet) : (buildTables T).builds = T.builds + 1 := rfl

theorem ensureSbox_of_valid {T : TableSet} (h : T.valid = true) : ensureSbox T = T := by simp [ensureSbox, h]

theorem ensureSbox_of_invalid {T : TableSet} (h : T.valid = false) : ensureSbox T = buildTables T := by
  simp [ensureSbox, h]

@[simp] theorem ensureSbox_valid (T : TableSet) : (ensureSbox T).valid = true := by
  unfold ensureSbox; split <;> simp_all

@[simp] theorem ensureSbox_ensureSbox (T : TableSet) : ensureSbox (ensureSbox T) = ensureSbox T :=
  ensureSbox_of_valid (ensureSbox_valid T)

/-- What a table read can do (R31): it gives the entry that is there, and only while the tables are published. -/
theorem read_eq_ok_iff {T : TableSet} {t : BitVec 2} {i : BitVec 10} {v : Word} :
    T.read t i = .ok v ↔ T.valid = true ∧ T.sbox.read t i = some v := by
  unfold TableSet.read
  cases T.valid <;> cases T.sbox.read t i <;> simp

/-- A read of tables with their final contents gives the entry of R86. -/
theorem read_of_contents {T : TableSet} (hv : T.valid = true) (hc : T.sbox = builtTables) (t : BitVec 2)
    (i : BitVec 10) : T.read t i = .ok (sboxEntry t i) := by
  rw [read_eq_ok_iff, hc]; exact ⟨hv, read_builtTables t i⟩

/-- A readable table set answers every read (R31). -/
theorem TableSet.Readable.read_ok {T : TableSet} (h : T.Readable) (t : BitVec 2) (i : BitVec 10) :
    ∃ v, T.read t i = .ok v := by
  obtain ⟨hv, h4, hcol⟩ := h
  have ht : t.toNat < T.sbox.length := by rw [h4]; exact t.isLt
  have hi : i.toNat < (T.sbox[t.toNat]).length := by rw [hcol _ (List.getElem_mem ht)]; exact i.isLt
  exact ⟨(T.sbox[t.toNat])[i.toNat], read_eq_ok_iff.2 ⟨hv, by simp [Memory.read, ht, hi]⟩⟩

/-- Tables with their final contents are readable. -/
theorem readable_of_contents {T : TableSet} (hv : T.valid = true) (hc : T.sbox = builtTables) : T.Readable := by
  refine ⟨hv, ?_, ?_⟩ <;> rw [hc] <;> simp [builtTables]

end Sys2Proof.Machine
end

