-- ==== Sys2Proof/Laws/Ops.lean ====
section
/-!
SUPPORT. For each shared operation, once, everything it can do.
-/

namespace Sys2Proof.Machine

open Host

/-- R32. -/
theorem readSched_eq_ok_iff {sched : List Subkey} {n : Nat} {sk : Subkey} :
    readSched sched n = .ok sk ↔ sched[n]? = some sk := by
  unfold readSched
  cases sched[n]? <;> simp

/-- A schedule entry below the length is there. -/
theorem readSched_of_lt {sched : List Subkey} {n : Nat} (h : n < sched.length) : readSched sched n = .ok sched[n] := by
  simp [readSched, h]

/-- What `withContext` can do: go on with the context there is, or answer `IllegalCommand`. -/
theorem withContext_next {s t : State} {ctx : Byte} {k : Context → Out} (h : withContext s ctx k = .next t) :
    (∃ c, s.ctxs[ctx.toNat]? = some c ∧ k c = .next t) ∨
      (s.ctxs[ctx.toNat]? = none ∧ t = s.answer (errorBytes .illegalCommand)) := by
  unfold withContext at h
  split at h
  · rename_i c hc; exact .inl ⟨c, hc, h⟩
  · rename_i hc; cases h; exact .inr ⟨hc, rfl⟩

theorem withContext_of_some {s : State} {ctx : Byte} {k : Context → Out} {c : Context}
    (h : s.ctxs[ctx.toNat]? = some c) : withContext s ctx k = k c := by simp [withContext, h]

theorem withContext_of_none {s : State} {ctx : Byte} {k : Context → Out} (h : s.ctxs[ctx.toNat]? = none) :
    withContext s ctx k = .next (s.answer (errorBytes .illegalCommand)) := by simp [withContext, h]

/-- What `withBytes` can do. -/
theorem withBytes_next {s t : State} {bs : List Byte} {k : Out} (h : withBytes s bs k = .next t) :
    (bytesFit s.limits bs = true ∧ k = .next t) ∨
      (bytesFit s.limits bs = false ∧ t = s.answer (errorBytes .illegalCommand)) := by
  unfold withBytes at h
  split at h
  · exact .inl ⟨‹_›, h⟩
  · cases h; exact .inr ⟨by simp_all, rfl⟩

theorem withBytes_of_fit {s : State} {bs : List Byte} {k : Out} (h : bytesFit s.limits bs = true) :
    withBytes s bs k = k := by simp [withBytes, h]

/-- What `withKey` can do. -/
theorem withKey_next {s t : State} {c : Context} {k : Out} (h : withKey s c k = .next t) :
    (c.keyValid = true ∧ k = .next t) ∨ (c.keyValid = false ∧ t = s.answer (errorBytes .noKey)) := by
  unfold withKey at h
  split at h
  · exact .inl ⟨‹_›, h⟩
  · cases h; exact .inr ⟨by simp_all, rfl⟩

theorem withKey_of_valid {s : State} {c : Context} {k : Out} (h : c.keyValid = true) : withKey s c k = k := by
  simp [withKey, h]

/-- What `withBlock` can do. -/
theorem withBlock_next {s t : State} {data : List Byte} {k : Out} (h : withBlock s data k = .next t) :
    (data.length = 8 ∧ k = .next t) ∨ (data.length ≠ 8 ∧ t = s.answer (errorBytes .invalidBlockLength)) := by
  unfold withBlock at h
  split at h
  · exact .inl ⟨‹_›, h⟩
  · cases h; exact .inr ⟨‹_›, rfl⟩

theorem withBlock_of_eight {s : State} {data : List Byte} {k : Out} (h : data.length = 8) : withBlock s data k = k := by
  simp [withBlock, h]

/-- What `deliver` can do: answer the value, or stop at the read that had none. -/
theorem deliver_next {s t : State} {v : Except Fault Result} (h : deliver s v = .next t) :
    ∃ r, v = .ok r ∧ t = s.answer (okBytes r) := by
  unfold deliver at h
  split at h
  · rename_i r; cases h; exact ⟨r, rfl, rfl⟩
  · cases h

@[simp] theorem deliver_ok (s : State) (r : Result) : deliver s (.ok r) = .next (s.answer (okBytes r)) := rfl

/-- Which command of a requester is taken: its oldest one, the others staying in their order. -/
theorem takeOldestOf_some {r : Nat} {l : List Request} {q : Request} {rest : List Request}
    (h : takeOldestOf r l = some (q, rest)) :
    q.requester = r ∧ ∃ before after, l = before ++ q :: after ∧ rest = before ++ after ∧
      ∀ p ∈ before, p.requester ≠ r := by
  induction l generalizing q rest with
  | nil => cases h
  | cons p l ih =>
    unfold takeOldestOf at h
    split at h
    · rename_i hp
      cases h
      exact ⟨hp, [], l, rfl, rfl, by simp⟩
    · rename_i hp
      split at h
      · rename_i q' rest' hq
        cases h
        obtain ⟨hr, before, after, rfl, rfl, hb⟩ := ih hq
        exact ⟨hr, p :: before, after, rfl, rfl, by simpa [hp] using hb⟩
      · cases h

/-- A requester that has a command pending has an oldest one. -/
theorem takeOldestOf_isSome {r : Nat} {l : List Request} {q : Request} (hq : q ∈ l) (hr : q.requester = r) :
    ∃ a, takeOldestOf r l = some a := by
  induction l with
  | nil => cases hq
  | cons p l ih =>
    unfold takeOldestOf
    split
    · exact ⟨_, rfl⟩
    · rename_i hp
      have hl : q ∈ l := by
        rcases List.mem_cons.1 hq with rfl | h
        · exact absurd hr hp
        · exact h
      obtain ⟨a, ha⟩ := ih hl
      rw [ha]
      exact ⟨_, rfl⟩

/-- What arbitration can do (R40): it takes one pending command, of a requester whose older commands are all gone, and
leaves the others in their order. -/
theorem arbitrate_some {pending : List Request} {order : List Nat} {q : Request} {rest : List Request}
    {order' : List Nat} (h : arbitrate pending order = some (q, rest, order')) :
    ∃ before after, pending = before ++ q :: after ∧ rest = before ++ after ∧
      ∀ p ∈ before, p.requester ≠ q.requester := by
  unfold arbitrate at h
  split at h
  · cases h
  · split at h
    · cases h
      exact ⟨[], rest, rfl, rfl, by simp⟩
    · split at h
      · rename_i hq
        cases h
        obtain ⟨hr, before, after, h1, h2, h3⟩ := takeOldestOf_some hq
        exact ⟨before, after, h1, h2, by rw [hr]; exact h3⟩
      · cases h
        exact ⟨[], rest, rfl, rfl, by simp⟩

/-- A command is accepted exactly when one is pending. -/
theorem accept_eq_none_iff {s : State} : s.accept = none ↔ s.pending = [] := by
  unfold State.accept arbitrate
  cases s.pending with
  | nil => simp
  | cons q rest =>
    cases s.order with
    | nil => simp
    | cons r order' =>
      simp only [reduceCtorEq, iff_false]
      cases takeOldestOf r (q :: rest) <;> simp

/-- What accepting a command changes: the command leaves the pending ones, and its requester is being served. -/
theorem accept_some {s t : State} {f : List Byte} (h : s.accept = some (f, t)) :
    ∃ q order', arbitrate s.pending s.order = some (q, t.pending, order') ∧ f = q.frame ∧
      t = { s with pending := t.pending, order := order', serving := q.requester } := by
  unfold State.accept at h
  split at h
  · cases h
  · rename_i q pending order heq
    cases h
    exact ⟨q, order, heq, rfl, rfl⟩

end Sys2Proof.Machine
end

