-- ==== Sys2Proof/Laws/Bytes.lean ====
section
/-!
SUPPORT. The big-endian fields (R34, R51): splitting into bytes and joining again are inverse, both ways, and a field
with must-be-zero bits reads back the value it was written from.
-/

namespace Sys2Proof.Machine

@[simp] theorem join16_bytes16 (v : BitVec 16) : join16 (v.extractLsb' 8 8) (v.extractLsb' 0 8) = v := by
  apply BitVec.eq_of_getLsbD_eq
  intro i hi
  simp only [join16, BitVec.getLsbD_append, BitVec.getLsbD_extractLsb']
  by_cases h : i < 8
  · simp [h]
  · simp [h, show i - 8 < 8 by omega, show 8 + (i - 8) = i by omega]

theorem join32_bytes32 (v : Word) :
    join32 (v.extractLsb' 24 8) (v.extractLsb' 16 8) (v.extractLsb' 8 8) (v.extractLsb' 0 8) = v := by
  apply BitVec.eq_of_getLsbD_eq
  intro i hi
  simp only [join32, BitVec.getLsbD_append, BitVec.getLsbD_extractLsb']
  by_cases h : i < 8
  · simp [h]
  · by_cases h2 : i < 16
    · simp [h, show i - 8 < 8 by omega, show 8 + (i - 8) = i by omega]
    · by_cases h3 : i < 24
      · simp [h, show ¬ i - 8 < 8 by omega, show i - 8 - 8 < 8 by omega, show 16 + (i - 8 - 8) = i by omega]
      · simp [h, show ¬ i - 8 < 8 by omega, show ¬ i - 8 - 8 < 8 by omega, show i - 8 - 8 - 8 < 8 by omega,
          show 24 + (i - 8 - 8 - 8) = i by omega]

theorem bytes16_join16 (b1 b0 : Byte) : bytes16 (join16 b1 b0) = [b1, b0] := by
  simp only [bytes16, List.cons.injEq, and_true]
  constructor <;> apply BitVec.eq_of_getLsbD_eq <;> intro i hi <;>
    simp only [join16, BitVec.getLsbD_append, BitVec.getLsbD_extractLsb']
  · simp [hi, show ¬ 8 + i < 8 by omega, show 8 + i - 8 = i by omega]
  · simp [hi]

theorem bytes32_join32 (b3 b2 b1 b0 : Byte) : bytes32 (join32 b3 b2 b1 b0) = [b3, b2, b1, b0] := by
  simp only [bytes32, List.cons.injEq, and_true]
  refine ⟨?_, ?_, ?_, ?_⟩ <;> apply BitVec.eq_of_getLsbD_eq <;> intro i hi <;>
    simp only [join32, BitVec.getLsbD_append, BitVec.getLsbD_extractLsb']
  · simp [hi, show ¬ 24 + i < 8 by omega, show ¬ 24 + i - 8 < 8 by omega, show ¬ 24 + i - 8 - 8 < 8 by omega,
      show 24 + i - 8 - 8 - 8 = i by omega]
  · simp [hi, show ¬ 16 + i < 8 by omega, show ¬ 16 + i - 8 < 8 by omega,
      show 16 + i - 8 - 8 = i by omega]
  · simp [hi, show ¬ 8 + i < 8 by omega, show 8 + i - 8 = i by omega]
  · simp [hi]

@[simp] theorem length_bytes16 (v : BitVec 16) : (bytes16 v).length = 2 := rfl
@[simp] theorem length_bytes32 (v : Word) : (bytes32 v).length = 4 := rfl
@[simp] theorem length_bytes64 (v : DWord) : (bytes64 v).length = 8 := rfl
@[simp] theorem length_lengthPrefixed (bs : List Byte) : (lengthPrefixed bs).length = 4 + bs.length := by
  simp [lengthPrefixed]

/-- A narrow field reads back the value it was widened from. -/
theorem narrow_setWidth {k w : Nat} (h : k ≤ w) (v : BitVec k) : narrow k (v.setWidth w) = .ok v := by
  have h0 : (v.setWidth w) >>> k = 0#w := by
    apply BitVec.eq_of_getLsbD_eq
    intro i hi
    simp
  simp [narrow, h0, BitVec.setWidth_setWidth_of_le, h]

/-- A narrow field that is read has no bit above its width. -/
theorem setWidth_of_narrow {k w : Nat} {v : BitVec w} {u : BitVec k} (h : narrow k v = .ok u) :
    u.setWidth w = v := by
  unfold narrow at h
  split at h
  · rename_i h0
    cases h
    apply BitVec.eq_of_getLsbD_eq
    intro i hi
    simp only [BitVec.getLsbD_setWidth, hi, decide_true, Bool.true_and]
    by_cases hk : i < k
    · simp [hk]
    · have := congrArg (fun x : BitVec w => x.getLsbD (i - k)) h0
      simp only [BitVec.getLsbD_ushiftRight, BitVec.getLsbD_zero] at this
      rw [show k + (i - k) = i by omega] at this
      simp [hk, this]
  · cases h

end Sys2Proof.Machine
end

