-- ==== Sys2Proof/Laws/Commands.lean ====
section
/-!
SUPPORT. For each command, once, everything it can do when it gives a next state.
-/

namespace Sys2Proof.Machine

open Host

variable {s t : State}

/-- A context number inside the block, as the decoder and the command see it. -/
theorem contextExists_iff {s : State} {ctx : Byte} :
    contextExists s.limits ctx = true ↔ ∃ c, s.ctxs[ctx.toNat]? = some c := by
  simp only [contextExists, decide_eq_true_eq]
  constructor
  · intro h; exact ⟨_, List.getElem?_eq_getElem h⟩
  · rintro ⟨c, hc⟩; exact (List.getElem?_eq_some_iff.1 hc).1

theorem not_contextExists_iff {s : State} {ctx : Byte} :
    contextExists s.limits ctx = false ↔ s.ctxs[ctx.toNat]? = none := by
  simp only [contextExists, decide_eq_false_iff_not]
  simp [State.limits, State.nctx]

theorem bytesFit_iff {s : State} {bs : List Byte} : bytesFit s.limits bs = true ↔ bs.length ≤ s.params.maxBuf := by
  simp only [bytesFit, decide_eq_true_eq]
  simp [State.limits]

/-- What the guards of a command on a context with a byte sequence can do before the key is looked at. -/
theorem guards_next {ctx : Byte} {bs : List Byte} {k : Context → Out}
    (h : (withContext s ctx fun c => withBytes s bs (k c)) = .next t) :
    ((contextExists s.limits ctx = false ∨ bytesFit s.limits bs = false) ∧
        t = s.answer (errorBytes .illegalCommand)) ∨
      ∃ c, s.ctxs[ctx.toNat]? = some c ∧ bytesFit s.limits bs = true ∧ k c = .next t := by
  rcases withContext_next h with ⟨c, hc, h⟩ | ⟨hc, rfl⟩
  · rcases withBytes_next h with ⟨hb, h⟩ | ⟨hb, rfl⟩
    · exact .inr ⟨c, hc, hb, h⟩
    · exact .inl ⟨.inr hb, rfl⟩
  · exact .inl ⟨.inl (not_contextExists_iff.2 hc), rfl⟩

theorem execSbrd_next {e : BitVec 2} {i : BitVec 10} (h : execSbrd e i s = .next t) :
    ∃ v, (ensureSbox s.tables).read e i = .ok v ∧ t = s.ensureTables.answer (okBytes (.value32 v)) := by
  obtain ⟨r, hr, rfl⟩ := deliver_next h
  rw [ensureTables_tables] at hr
  cases hv : (ensureSbox s.tables).read e i with
  | error f => rw [hv] at hr; cases hr
  | ok v => rw [hv] at hr; cases hr; exact ⟨v, rfl, rfl⟩

theorem execRoundf_next {p : Word} {sk0 sk1 sk2 : Lane} (h : execRoundf p sk0 sk1 sk2 s = .next t) :
    ∃ v, roundF (ensureSbox s.tables) p { l0 := sk0, l1 := sk1, l2 := sk2 } = .ok v ∧
      t = s.ensureTables.answer (okBytes (.value32 v)) := by
  obtain ⟨r, hr, rfl⟩ := deliver_next h
  rw [ensureTables_tables] at hr
  cases hv : roundF (ensureSbox s.tables) p { l0 := sk0, l1 := sk1, l2 := sk2 } with
  | error f => rw [hv] at hr; cases hr
  | ok v => rw [hv] at hr; cases hr; exact ⟨v, rfl, rfl⟩

/-- KEYSET: a malformed operand, a level that is not supported, a key of the wrong length, or the context written. -/
theorem execKeyset_next {ctx : Byte} {level : Word} {key : List Byte} (h : execKeyset ctx level key s = .next t) :
    ((contextExists s.limits ctx = false ∨ bytesFit s.limits key = false) ∧
        t = s.answer (errorBytes .illegalCommand)) ∨
      (contextExists s.limits ctx = true ∧ bytesFit s.limits key = true ∧
        ((levelSupported s.params level.toInt = false ∧ t = s.answer (errorBytes .unsupportedLevel)) ∨
          (levelSupported s.params level.toInt = true ∧ key.length ≠ 8 * (variant level.toInt).1 ∧
            t = s.answer (errorBytes .invalidKeyLength)) ∨
          (levelSupported s.params level.toInt = true ∧ key.length = 8 * (variant level.toInt).1 ∧
            t = (s.ensureTables.setContext ctx (keyedContext level key)).answer (okBytes .nothing)))) := by
  rcases guards_next h with h | ⟨c, hc, hb, h⟩
  · exact .inl h
  refine .inr ⟨contextExists_iff.2 ⟨c, hc⟩, hb, ?_⟩
  split at h
  · split at h
    · cases h; exact .inr (.inr ⟨‹_›, ‹_›, rfl⟩)
    · cases h; exact .inr (.inl ⟨‹_›, ‹_›, rfl⟩)
  · cases h; exact .inl ⟨by simp_all, rfl⟩

/-- The commands on one block: a malformed operand, no key, a wrong length, or the block that was computed. -/
theorem blockCommand_next {ctx : Byte} {data : List Byte} {f : Context → Except Fault (List Byte)}
    (h : (withContext s ctx fun c => withBytes s data <| withKey s c <| withBlock s data <|
      deliver s ((f c).map .block)) = .next t) :
    ((contextExists s.limits ctx = false ∨ bytesFit s.limits data = false) ∧
        t = s.answer (errorBytes .illegalCommand)) ∨
      ∃ c, s.ctxs[ctx.toNat]? = some c ∧ bytesFit s.limits data = true ∧
        ((c.keyValid = false ∧ t = s.answer (errorBytes .noKey)) ∨
          (c.keyValid = true ∧ data.length ≠ 8 ∧ t = s.answer (errorBytes .invalidBlockLength)) ∨
          (c.keyValid = true ∧ data.length = 8 ∧ ∃ y, f c = .ok y ∧ t = s.answer (okBytes (.block y)))) := by
  rcases guards_next h with h | ⟨c, hc, hb, h⟩
  · exact .inl h
  refine .inr ⟨c, hc, hb, ?_⟩
  rcases withKey_next h with ⟨hk, h⟩ | ⟨hk, rfl⟩
  · rcases withBlock_next h with ⟨h8, h⟩ | ⟨h8, rfl⟩
    · obtain ⟨r, hr, rfl⟩ := deliver_next h
      cases hv : f c with
      | error e => rw [hv] at hr; cases hr
      | ok y => rw [hv] at hr; cases hr; exact .inr (.inr ⟨hk, h8, y, rfl, rfl⟩)
    · exact .inr (.inl ⟨hk, h8, rfl⟩)
  · exact .inl ⟨hk, rfl⟩

/-- DECRNG: a malformed operand, no key, a range outside the buffer, or the bytes that were computed. -/
theorem execDecrng_next {ctx : Byte} {start stop : Word} {buf : List Byte}
    (h : execDecrng ctx start stop buf s = .next t) :
    ((contextExists s.limits ctx = false ∨ bytesFit s.limits buf = false) ∧
        t = s.answer (errorBytes .illegalCommand)) ∨
      ∃ c, s.ctxs[ctx.toNat]? = some c ∧ bytesFit s.limits buf = true ∧
        ((c.keyValid = false ∧ t = s.answer (errorBytes .noKey)) ∨
          (c.keyValid = true ∧ rangeOk start.toInt stop.toInt buf.length = false ∧
            t = s.answer (errorBytes .invalidRange)) ∨
          (c.keyValid = true ∧ rangeOk start.toInt stop.toInt buf.length = true ∧
            ∃ out, decryptRange s.tables c.sched c.rounds.toNat buf start.toNat stop.toNat = .ok out ∧
              t = s.answer (okBytes (.bytes out)))) := by
  rcases guards_next h with h | ⟨c, hc, hb, h⟩
  · exact .inl h
  refine .inr ⟨c, hc, hb, ?_⟩
  rcases withKey_next h with ⟨hk, h⟩ | ⟨hk, rfl⟩
  · split at h
    · obtain ⟨r, hr, rfl⟩ := deliver_next h
      cases hv : decryptRange s.tables c.sched c.rounds.toNat buf start.toNat stop.toNat with
      | error e => rw [hv] at hr; cases hr
      | ok y => rw [hv] at hr; cases hr; exact .inr (.inr ⟨hk, ‹_›, y, rfl, rfl⟩)
    · cases h; exact .inr (.inl ⟨hk, by simp_all, rfl⟩)
  · exact .inl ⟨hk, rfl⟩

/-- DECALL: a malformed operand, no key, or the bytes that were computed. -/
theorem execDecall_next {ctx : Byte} {buf : List Byte} (h : execDecall ctx buf s = .next t) :
    ((contextExists s.limits ctx = false ∨ bytesFit s.limits buf = false) ∧
        t = s.answer (errorBytes .illegalCommand)) ∨
      ∃ c, s.ctxs[ctx.toNat]? = some c ∧ bytesFit s.limits buf = true ∧
        ((c.keyValid = false ∧ t = s.answer (errorBytes .noKey)) ∨
          (c.keyValid = true ∧
            ∃ out, decryptRange s.tables c.sched c.rounds.toNat buf 0 buf.length = .ok out ∧
              t = s.answer (okBytes (.bytes out)))) := by
  rcases guards_next h with h | ⟨c, hc, hb, h⟩
  · exact .inl h
  refine .inr ⟨c, hc, hb, ?_⟩
  rcases withKey_next h with ⟨hk, h⟩ | ⟨hk, rfl⟩
  · obtain ⟨r, hr, rfl⟩ := deliver_next h
    cases hv : decryptRange s.tables c.sched c.rounds.toNat buf 0 buf.length with
    | error e => rw [hv] at hr; cases hr
    | ok y => rw [hv] at hr; cases hr; exact .inr ⟨hk, y, rfl, rfl⟩
  · exact .inl ⟨hk, rfl⟩

/-- STAT: no such context, or the record. -/
theorem execStat_next {ctx : Byte} (h : execStat ctx s = .next t) :
    (contextExists s.limits ctx = false ∧ t = s.answer (errorBytes .illegalCommand)) ∨
      ∃ c, s.ctxs[ctx.toNat]? = some c ∧ t = s.answer (okBytes (.status (statusOf s.tables c))) := by
  rcases withContext_next h with ⟨c, hc, h⟩ | ⟨hc, rfl⟩
  · cases h; exact .inr ⟨c, hc, rfl⟩
  · exact .inl ⟨not_contextExists_iff.2 hc, rfl⟩

end Sys2Proof.Machine
end

