-- ==== Sys2Proof/Laws/PerInstr.lean ====
section
/-!
SUPPORT. Facts about every command as syntax, one lemma per constructor.
-/

namespace Sys2Proof.Laws

open Sys2Proof.Machine

/-- The frame of a command begins with its opcode (30_encoding.md rules R51, R53). -/
def OpcodeFirst.Statement (i : Instr) : Prop := ∃ body, encode i = opcode i :: body

theorem OpcodeFirst.gfmul (a b : Byte) (m : BitVec 9) : OpcodeFirst.Statement (.gfmul a b m) := ⟨_, rfl⟩
theorem OpcodeFirst.gfexp7 (b : Byte) (m : BitVec 9) : OpcodeFirst.Statement (.gfexp7 b m) := ⟨_, rfl⟩
theorem OpcodeFirst.perm32 (x : Word) : OpcodeFirst.Statement (.perm32 x) := ⟨_, rfl⟩
theorem OpcodeFirst.sbinit : OpcodeFirst.Statement .sbinit := ⟨_, rfl⟩
theorem OpcodeFirst.sbrd (t : BitVec 2) (i : BitVec 10) : OpcodeFirst.Statement (.sbrd t i) := ⟨_, rfl⟩
theorem OpcodeFirst.keyset (ctx : Byte) (level : Word) (key : List Byte) :
    OpcodeFirst.Statement (.keyset ctx level key) := ⟨_, rfl⟩
theorem OpcodeFirst.roundf (p : Word) (sk0 sk1 sk2 : Lane) : OpcodeFirst.Statement (.roundf p sk0 sk1 sk2) := ⟨_, rfl⟩
theorem OpcodeFirst.enc (ctx : Byte) (data : List Byte) : OpcodeFirst.Statement (.enc ctx data) := ⟨_, rfl⟩
theorem OpcodeFirst.dec (ctx : Byte) (data : List Byte) : OpcodeFirst.Statement (.dec ctx data) := ⟨_, rfl⟩
theorem OpcodeFirst.decrng (ctx : Byte) (start stop : Word) (buf : List Byte) :
    OpcodeFirst.Statement (.decrng ctx start stop buf) := ⟨_, rfl⟩
theorem OpcodeFirst.decall (ctx : Byte) (buf : List Byte) : OpcodeFirst.Statement (.decall ctx buf) := ⟨_, rfl⟩
theorem OpcodeFirst.stat (ctx : Byte) : OpcodeFirst.Statement (.stat ctx) := ⟨_, rfl⟩

/-- The length of a byte-sequence operand; 0 where a command has none. -/
def operandLength : Instr → Nat
  | .gfmul _ _ _ => 0
  | .gfexp7 _ _ => 0
  | .perm32 _ => 0
  | .sbinit => 0
  | .sbrd _ _ => 0
  | .keyset _ _ key => key.length
  | .roundf _ _ _ _ => 0
  | .enc _ data => data.length
  | .dec _ data => data.length
  | .decrng _ _ _ buf => buf.length
  | .decall _ buf => buf.length
  | .stat _ => 0

/-- The part of a frame's length that the opcode alone fixes (R53). -/
def headerLength : Instr → Nat
  | .gfmul _ _ _ => 5
  | .gfexp7 _ _ => 4
  | .perm32 _ => 5
  | .sbinit => 1
  | .sbrd _ _ => 4
  | .keyset _ _ _ => 10
  | .roundf _ _ _ _ => 17
  | .enc _ _ => 6
  | .dec _ _ => 6
  | .decrng _ _ _ _ => 14
  | .decall _ _ => 6
  | .stat _ => 2

/-- A frame has the length R53 gives for its opcode and its operand. -/
def FrameSize.Statement (i : Instr) : Prop := (encode i).length = headerLength i + operandLength i

theorem FrameSize.gfmul (a b : Byte) (m : BitVec 9) : FrameSize.Statement (.gfmul a b m) := rfl
theorem FrameSize.gfexp7 (b : Byte) (m : BitVec 9) : FrameSize.Statement (.gfexp7 b m) := rfl
theorem FrameSize.perm32 (x : Word) : FrameSize.Statement (.perm32 x) := rfl
theorem FrameSize.sbinit : FrameSize.Statement .sbinit := rfl
theorem FrameSize.sbrd (t : BitVec 2) (i : BitVec 10) : FrameSize.Statement (.sbrd t i) := rfl
theorem FrameSize.keyset (ctx : Byte) (level : Word) (key : List Byte) :
    FrameSize.Statement (.keyset ctx level key) := by
  simp [FrameSize.Statement, encode, lengthPrefixed, bytes32, headerLength, operandLength]; omega
theorem FrameSize.roundf (p : Word) (sk0 sk1 sk2 : Lane) : FrameSize.Statement (.roundf p sk0 sk1 sk2) := rfl
theorem FrameSize.enc (ctx : Byte) (data : List Byte) : FrameSize.Statement (.enc ctx data) := by
  simp [FrameSize.Statement, encode, lengthPrefixed, bytes32, headerLength, operandLength]; omega
theorem FrameSize.dec (ctx : Byte) (data : List Byte) : FrameSize.Statement (.dec ctx data) := by
  simp [FrameSize.Statement, encode, lengthPrefixed, bytes32, headerLength, operandLength]; omega
theorem FrameSize.decrng (ctx : Byte) (start stop : Word) (buf : List Byte) :
    FrameSize.Statement (.decrng ctx start stop buf) := by
  simp [FrameSize.Statement, encode, lengthPrefixed, bytes32, headerLength, operandLength]; omega
theorem FrameSize.decall (ctx : Byte) (buf : List Byte) : FrameSize.Statement (.decall ctx buf) := by
  simp [FrameSize.Statement, encode, lengthPrefixed, bytes32, headerLength, operandLength]; omega
theorem FrameSize.stat (ctx : Byte) : FrameSize.Statement (.stat ctx) := rfl

end Sys2Proof.Laws
end

