-- ==== Sys2Proof/Laws/Step.lean ====
section
/-!
SUPPORT. Everything a command can do to the state when it gives a next state, over all commands at once; everything a
step can do.
-/

namespace Sys2Proof.Machine

open Host

/-- What `ensure_sbox` can do (R89). -/
theorem ensureSbox_cases (T : TableSet) : ensureSbox T = T ∨ (T.valid = false ∧ ensureSbox T = buildTables T) := by
  cases h : T.valid
  · exact .inr ⟨rfl, ensureSbox_of_invalid h⟩
  · exact .inl (ensureSbox_of_valid h)

/-- No error has the code of `OK` (R150). -/
theorem code_ne_zero (e : Error) : e.code ≠ 0x00 := by cases e <;> decide

/-- A command that gives a next state does one of four things: it answers an error; it answers `OK` and writes nothing;
it makes the tables valid and answers `OK`; it is a KEYSET that does this and writes its context. -/
theorem exec_next {i : Instr} {s t : State} (h : exec i s = .next t) :
    (∃ e : Error, t = s.answer [e.code]) ∨
      (∃ rest, t = s.answer (0x00 :: rest) ∧ needsTables i = false) ∨
      (∃ rest, t = s.ensureTables.answer (0x00 :: rest) ∧ needsTables i = true) ∨
      ∃ ctx level key, i = .keyset ctx level key ∧ ctx.toNat < s.nctx ∧ bytesFit s.limits key = true ∧
        levelSupported s.params level.toInt = true ∧ key.length = 8 * (variant level.toInt).1 ∧
        t = (s.ensureTables.setContext ctx (keyedContext level key)).answer [0x00] := by
  cases i with
  | gfmul a b m => cases h; exact .inr (.inl ⟨_, rfl, rfl⟩)
  | gfexp7 b m => cases h; exact .inr (.inl ⟨_, rfl, rfl⟩)
  | perm32 x => cases h; exact .inr (.inl ⟨_, rfl, rfl⟩)
  | sbinit => cases h; exact .inr (.inr (.inl ⟨_, rfl, rfl⟩))
  | sbrd e n => obtain ⟨v, -, rfl⟩ := execSbrd_next h; exact .inr (.inr (.inl ⟨_, rfl, rfl⟩))
  | roundf p sk0 sk1 sk2 => obtain ⟨v, -, rfl⟩ := execRoundf_next h; exact .inr (.inr (.inl ⟨_, rfl, rfl⟩))
  | keyset ctx level key =>
    rcases execKeyset_next h with ⟨-, rfl⟩ | ⟨hc, hb, ⟨-, rfl⟩ | ⟨-, -, rfl⟩ | ⟨hl, hk, rfl⟩⟩
    · exact .inl ⟨.illegalCommand, rfl⟩
    · exact .inl ⟨.unsupportedLevel, rfl⟩
    · exact .inl ⟨.invalidKeyLength, rfl⟩
    · exact .inr (.inr (.inr ⟨_, _, _, rfl, of_decide_eq_true hc, hb, hl, hk, rfl⟩))
  | enc ctx data =>
    rcases blockCommand_next (f := fun c => encryptBlock s.tables c.sched c.rounds.toNat data) h with
      ⟨-, rfl⟩ | ⟨c, -, -, ⟨-, rfl⟩ | ⟨-, -, rfl⟩ | ⟨-, -, y, -, rfl⟩⟩
    · exact .inl ⟨.illegalCommand, rfl⟩
    · exact .inl ⟨.noKey, rfl⟩
    · exact .inl ⟨.invalidBlockLength, rfl⟩
    · exact .inr (.inl ⟨_, rfl, rfl⟩)
  | dec ctx data =>
    rcases blockCommand_next (f := fun c => decryptBlock s.tables c.sched c.rounds.toNat data) h with
      ⟨-, rfl⟩ | ⟨c, -, -, ⟨-, rfl⟩ | ⟨-, -, rfl⟩ | ⟨-, -, y, -, rfl⟩⟩
    · exact .inl ⟨.illegalCommand, rfl⟩
    · exact .inl ⟨.noKey, rfl⟩
    · exact .inl ⟨.invalidBlockLength, rfl⟩
    · exact .inr (.inl ⟨_, rfl, rfl⟩)
  | decrng ctx start stop buf =>
    rcases execDecrng_next h with ⟨-, rfl⟩ | ⟨c, -, -, ⟨-, rfl⟩ | ⟨-, -, rfl⟩ | ⟨-, -, y, -, rfl⟩⟩
    · exact .inl ⟨.illegalCommand, rfl⟩
    · exact .inl ⟨.noKey, rfl⟩
    · exact .inl ⟨.invalidRange, rfl⟩
    · exact .inr (.inl ⟨_, rfl, rfl⟩)
  | decall ctx buf =>
    rcases execDecall_next h with ⟨-, rfl⟩ | ⟨c, -, -, ⟨-, rfl⟩ | ⟨-, y, -, rfl⟩⟩
    · exact .inl ⟨.illegalCommand, rfl⟩
    · exact .inl ⟨.noKey, rfl⟩
    · exact .inr (.inl ⟨_, rfl, rfl⟩)
  | stat ctx =>
    rcases execStat_next h with ⟨-, rfl⟩ | ⟨c, -, rfl⟩
    · exact .inl ⟨.illegalCommand, rfl⟩
    · exact .inr (.inl ⟨_, rfl, rfl⟩)

/-- What accepting a command leaves alone, and where the command comes from. -/
theorem accept_keeps {s t : State} {f : List Byte} (h : s.accept = some (f, t)) :
    t.params = s.params ∧ t.tables = s.tables ∧ t.ctxs = s.ctxs ∧ t.responses = s.responses ∧
      t.resetAsked = s.resetAsked ∧ s.pending.length = t.pending.length + 1 ∧
      ({ requester := t.serving, frame := f } : Request) ∈ s.pending := by
  obtain ⟨q, o, h1, rfl, h3⟩ := accept_some h
  obtain ⟨before, after, h4, h5, -⟩ := arbitrate_some h1
  refine ⟨?_, ?_, ?_, ?_, ?_, ?_, ?_⟩
  iterate 5 rw [h3]
  · rw [h4, h5]; simp; omega
  · rw [h3, h4]; simp

/-- What a step can do: reset, nothing, run the command it accepted, or answer a malformed frame. -/
theorem step_next {s t : State} (h : step s = .next t) :
    (s.resetAsked = true ∧ t = s.doReset) ∨ (s.resetAsked = false ∧ s.pending = [] ∧ t = s) ∨
      ∃ f s1, s.resetAsked = false ∧ s.accept = some (f, s1) ∧
        ((∃ i, decode s1.limits f = .ok i ∧ exec i s1 = .next t) ∨
          ∃ e, decode s1.limits f = .error e ∧ t = s1.answer [0x05]) := by
  unfold step at h
  split at h
  · cases h; exact .inl ⟨‹_›, rfl⟩
  · rename_i hr
    split at h
    · rename_i ha; cases h; exact .inr (.inl ⟨by simpa using hr, accept_eq_none_iff.1 ha, rfl⟩)
    · rename_i f s1 ha
      refine .inr (.inr ⟨f, s1, by simpa using hr, ha, ?_⟩)
      split at h
      · exact .inl ⟨_, ‹_›, h⟩
      · cases h; exact .inr ⟨_, ‹_›, rfl⟩

end Sys2Proof.Machine
end

