-- ==== Sys2Proof/Tests/Slice0.lean ====
section
/-!
SUPPORT. Tests on fixed values, each expected value taken from the tables of 95_test_vectors.md named beside it, and for
every statement with hypotheses a witness: a concrete state and operands that meet all of them together.
-/

namespace Sys2Proof.Tests

-- the kernel evaluations below one after another: side by side they want a thread and its stack each
set_option Elab.async false

open Sys2Proof Sys2Proof.Machine Host

/-! ## States to test on -/

/-- Two contexts after reset, the setting of 95_test_vectors.md. -/
def fresh : State := State.resetWith Config.Params.default 2

/-- The same with the tables as constants. -/
def freshRom : State := State.resetWith { Config.Params.default with sboxRom := true } 2

/-- The source's key (95_test_vectors.md section 1). -/
def sourceKey : List Byte := [0x12, 0x23, 0x34, 0x45, 0x56, 0x67, 0x78, 0x89]

/-- The source's plaintext. -/
def plain : List Byte := [0x11, 0x22, 0x33, 0x44, 0x55, 0x66, 0x77, 0x88]

/-- The instance of level `level` that the source's key makes. -/
def instanceOf (level : Word) : Context := keyedContext level sourceKey

/-- The instance in context 0, the tables built. -/
def keyed (level : Word) : State := fresh.ensureTables.setContext 0 (instanceOf level)

/-- The instance in context 0 of a block whose tables are constants. -/
def keyedRom (level : Word) : State := freshRom.ensureTables.setContext 0 (instanceOf level)

/-- What a step of a block with `frame` presented answers; nothing where it stops. -/
def answerTo (s : State) (frame : List Byte) : List (List Byte) :=
  match step (s.present 7 frame) with
  | .next t => t.responses.map fun r => r.bytes
  | _ => []

/-! ## Well-formed commands: one refused term for each check -/

theorem test_wellFormed_refuses_context :
    (Instr.stat 2).wellFormed fresh.limits = false ∧ (Instr.stat 1).wellFormed fresh.limits = true := by decide

theorem test_wellFormed_refuses_long_bytes :
    (Instr.decall 0 (List.replicate 9 0)).wellFormed { nctx := 1, maxBuf := 8 } = false ∧
      (Instr.decall 0 (List.replicate 8 0)).wellFormed { nctx := 1, maxBuf := 8 } = true := by decide

/-! ## Decoding: frames written out from R53 (95_test_vectors.md sections 3.1, 8, 10, 11) -/

/-- The decoder at the limits of the tests. -/
def decoded (f : List Byte) : Option Instr := (decode fresh.limits f).toOption

theorem test_decode_gfmul : decoded [0x01, 0x80, 0x02, 0x01, 0x4d] = some (.gfmul 0x80 0x02 333) := by decide

theorem test_decode_gfexp7 : decoded [0x02, 0x83, 0x01, 0x4d] = some (.gfexp7 0x83 333) := by decide

theorem test_decode_perm32 : decoded [0x03, 0x17, 0x00, 0x00, 0x00] = some (.perm32 0x17000000) := by decide

theorem test_decode_sbinit : decoded [0x04] = some .sbinit := by decide

theorem test_decode_sbrd : decoded [0x05, 0x03, 0x03, 0xff] = some (.sbrd 3 1023) := by decide

theorem test_decode_keyset : decoded ([0x06, 0x01, 0xff, 0xff, 0xff, 0xf9, 0, 0, 0, 8] ++ sourceKey) =
    some (.keyset 1 (-7) sourceKey) := by decide

theorem test_decode_roundf :
    decoded [0x07, 0x55, 0x66, 0x77, 0x88, 0x00, 0x0f, 0x86, 0x5f, 0x00, 0x05, 0x08, 0x6a, 0x00, 0x06, 0x50, 0x8c] =
      some (.roundf 0x55667788 0xf865f 0x5086a 0x6508c) := by decide

theorem test_decode_enc : decoded ([0x08, 0x00, 0, 0, 0, 8] ++ plain) = some (.enc 0 plain) := by decide

theorem test_decode_dec : decoded ([0x09, 0x00, 0, 0, 0, 8] ++ plain) = some (.dec 0 plain) := by decide

theorem test_decode_decrng : decoded [0x0a, 0x00, 0, 0, 0, 8, 0, 0, 0, 0x10, 0, 0, 0, 3, 0xaa, 0xbb, 0xcc] =
    some (.decrng 0 8 16 [0xaa, 0xbb, 0xcc]) := by decide

theorem test_decode_decall : decoded [0x0b, 0x01, 0, 0, 0, 0] = some (.decall 1 []) := by decide

theorem test_decode_stat : decoded [0x0c, 0x00] = some (.stat 0) := by decide

/-- The malformed frames of section 11. -/
theorem test_decode_malformed :
    decode fresh.limits [] = .error .wrongLength ∧ decode fresh.limits [0x00] = .error .reservedOpcode ∧
    decode fresh.limits [0x0d] = .error .reservedOpcode ∧ decode fresh.limits [0xff, 0, 0] = .error .reservedOpcode ∧
    decode fresh.limits [0x04, 0x00] = .error .wrongLength ∧
    decode fresh.limits [0x01, 0x80, 0x02, 0x01, 0x4d, 0x00] = .error .wrongLength ∧
    decode fresh.limits [0x01, 0x80, 0x02, 0x02, 0x4d] = .error .mustBeZero ∧
    decode fresh.limits [0x05, 0x00, 0x04, 0x00] = .error .mustBeZero ∧
    decode fresh.limits ([0x08, 0x00, 0, 0, 0, 9] ++ plain) = .error .wrongLength ∧
    decode fresh.limits [0x0c, 0x02] = .error .noSuchContext := by decide

/-- A length field above `MAXBUF` (R55). -/
theorem test_decode_too_long : decode fresh.limits [0x0b, 0x00, 0x80, 0, 0, 0] = .error .bytesTooLong := by decide

/-- The table's numbering: bit 0 is the least significant bit of the first byte, later bytes count on. -/
theorem test_table_word : decodeTableWord 8 0x04 = some .sbinit ∧ decodeTableWord 8 0x06 = some (.keyset 0 0 []) ∧
    decodeTableWord 32 0x4d018302 = some (.gfexp7 0x83 333) ∧ decodeTableWord 8 0x0d = none := by decide

/-- The word placed for the fetch is what the next step runs. -/
theorem test_fetch_word : step (State.reset.withFetchWord 8 0x0c) = exec (.stat 0) State.reset := rfl

/-! ## The units (95_test_vectors.md sections 3 to 6) -/

theorem test_gfMult_values : gfMult 0x53 0xca 283 = 0x01 ∧ gfMult 0xff 0xff 333 = 0xf6 ∧ gfMult 0x80 0x02 255 = 0x1ff ∧
    gfMult 0xff 0xff 0 = 0x5555 ∧ gfMult 0x53 0 333 = 0 := by decide +kernel

theorem test_gfExp7_values : gfExp7 0 511 = 0 ∧ gfExp7 0x83 333 = 0x17 ∧ gfExp7 4 255 = 0x50ef ∧
    gfExp7 0xff 0 = 0x3000300030003 := by decide +kernel

theorem test_perm32_values : perm32 0x000000ff = 0x41282481 ∧ perm32 0x12345678 = 0x056f2360 ∧
    perm32 0xdeadbeef = 0xf3e5ffe5 := by decide +kernel

theorem test_sboxEntry_values : sboxEntry 0 0 = 0x00040842 ∧ sboxEntry 1 2 = 0x08020214 ∧ sboxEntry 2 513 = 0x00014108 ∧
    sboxEntry 3 1023 = 0x40080080 := by decide +kernel

/-- Section 4.3: each table's entries have exactly the ones of its mask between them; here at 16 entries of table 0. -/
theorem test_masks_cover : (List.range 16).foldl (fun acc k => acc ||| sboxEntry 0 (BitVec.ofNat 10 (64 * k + 1))) 0 =
    0x82141842 := by decide +kernel

/-! ## Commands -/

/-- Section 11. -/
theorem test_gfmul : answerTo fresh [0x01, 0x80, 0x02, 0x01, 0x4d] = [[0, 0, 0, 0, 0, 0, 0, 0, 0x4d]] := by
  decide +kernel

theorem test_gfmul_must_be_zero : answerTo fresh [0x01, 0x80, 0x02, 0x03, 0x4d] = [[0x05]] := by decide +kernel

/-- Section 3.2: 50 bits of result. -/
theorem test_gfexp7 : answerTo fresh [0x02, 0xff, 0x00, 0xff] = [[0, 0x00, 0x02, 0x22, 0x27, 0xff, 0xfd, 0xdd, 0xd8]] := by
  decide +kernel

/-- Section 11. -/
theorem test_perm32 : answerTo fresh [0x03, 0x17, 0x00, 0x00, 0x00] = [[0, 0x00, 0x04, 0x08, 0x42]] := by decide +kernel

/-- Section 10, program 1, steps 3 and 4: one build, whatever follows. -/
theorem test_sbinit_builds_once :
    fresh.ensureTables.tables.builds = 1 ∧ fresh.ensureTables.ensureTables.tables.builds = 1 ∧
      freshRom.ensureTables.tables.builds = 0 := by decide

theorem test_sbinit : answerTo fresh [0x04] = [[0x00]] := by decide +kernel

/-- Section 4.2. -/
theorem test_sbrd : answerTo fresh [0x05, 0x03, 0x03, 0xff] = [[0, 0x40, 0x08, 0x00, 0x80]] := by decide +kernel

theorem test_sbrd_builds : (match step (fresh.present 0 [0x05, 0x00, 0x00, 0x00]) with
    | .next t => some (t.tables.valid, t.tables.builds)
    | _ => none) = some (true, 1) := by decide

/-- Section 10, program 3, step 1, and section 10, program 4, step 3. -/
theorem test_keyset : answerTo fresh ([0x06, 0x00, 0xff, 0xff, 0xff, 0xff, 0, 0, 0, 8] ++ sourceKey) = [[0x00]] ∧
    answerTo fresh ([0x06, 0x00, 0, 0, 0, 2, 0, 0, 0, 8] ++ sourceKey) = [[0x01]] := by decide +kernel

/-- `UnsupportedLevel` comes before `InvalidKeyLength` (R157, R158). -/
theorem test_keyset_level : answerTo (State.resetWith { Config.Params.default with maxLevel := some 1 } 1)
    [0x06, 0x00, 0, 0, 0, 2, 0, 0, 0, 0] = [[0x06]] := by decide

/-- Section 5.1: the first subkey of the source's key at level 1. -/
theorem test_schedule : (instanceOf 1).sched.head? = some { l0 := 0xf865f, l1 := 0x5086a, l2 := 0x6508c } ∧
    (instanceOf 1).sched.length = 16 ∧ (instanceOf 0).sched.length = 8 := by decide +kernel

/-- Section 11. -/
theorem test_roundf : answerTo fresh
    [0x07, 0x55, 0x66, 0x77, 0x88, 0x00, 0x0f, 0x86, 0x5f, 0x00, 0x05, 0x08, 0x6a, 0x00, 0x06, 0x50, 0x8c] =
      [[0, 0x27, 0x52, 0xe4, 0x7a]] := by decide +kernel

/-- Section 1: the source's known-answer vector. -/
theorem test_enc_known_answer : answerTo (keyed 1) ([0x08, 0x00, 0, 0, 0, 8] ++ plain) =
    [[0, 0x58, 0x4c, 0x8c, 0xfe, 0x67, 0x2a, 0xd3, 0x6b]] := by decide +kernel

/-- Section 10, program 4, step 1; section 7. -/
theorem test_enc_errors : answerTo fresh ([0x08, 0x00, 0, 0, 0, 8] ++ plain) = [[0x04]] ∧
    answerTo (keyed 0) [0x08, 0x00, 0, 0, 0, 1, 0x11] = [[0x02]] := by decide +kernel

/-- Section 8: the thin variant of the source's key, one block back. -/
theorem test_dec_thin :
    answerTo (keyed 0) [0x09, 0x00, 0, 0, 0, 8, 0x80, 0x77, 0x7f, 0x99, 0xd1, 0x24, 0xa0, 0xa0] = [0x00 :: plain] := by
  decide +kernel

/-- Section 10, program 4, step 2: `NoKey` before `InvalidBlockLength`. -/
theorem test_dec_priority : answerTo fresh [0x09, 0x00, 0, 0, 0, 1, 0x11] = [[0x04]] := by decide

/-- Section 8: a range that starts inside the buffer; here under the thin variant, with one byte before the chunk and one
after it. -/
theorem test_decrng : answerTo (keyed 0)
    [0x0a, 0x00, 0, 0, 0, 1, 0, 0, 0, 10, 0, 0, 0, 10, 0xee, 0x80, 0x77, 0x7f, 0x99, 0xd1, 0x24, 0xa0, 0xa0, 0x01] =
      [[0x00, 0, 0, 0, 9] ++ plain ++ [0x01]] := by decide +kernel

/-- Section 8: `from < 0`, and an empty range beyond the end. -/
theorem test_decrng_range :
    answerTo (keyed 0) [0x0a, 0x00, 0xff, 0xff, 0xff, 0xff, 0, 0, 0, 0, 0, 0, 0, 1, 0xaa] = [[0x03]] ∧
    answerTo (keyed 0) [0x0a, 0x00, 0, 0, 0, 2, 0, 0, 0, 2, 0, 0, 0, 1, 0xaa] = [[0x03]] := by decide +kernel

/-- Section 8: `DECALL 0, aabbcc` and `DECALL 0, -`. -/
theorem test_decall : answerTo (keyed 1) [0x0b, 0x00, 0, 0, 0, 3, 0xaa, 0xbb, 0xcc] = [[0x00, 0, 0, 0, 3, 0xaa, 0xbb, 0xcc]] ∧
    answerTo (keyed 1) [0x0b, 0x00, 0, 0, 0, 0] = [[0x00, 0, 0, 0, 0]] := by decide +kernel

/-- Section 10, program 1, step 1, and the last line of its text. -/
theorem test_stat_reset : answerTo fresh [0x0c, 0x00] = [0x00 :: List.replicate 18 0] ∧
    (answerTo freshRom [0x0c, 0x00]).map (List.take 6) = [[0x00, 0x01, 0, 0, 0, 0]] := by decide +kernel

/-- Section 10, program 1, step 7. -/
theorem test_stat_keyed : answerTo (keyed 1) [0x0c, 0x00] =
    [[0x00, 0x01, 0, 0, 0, 1, 0x01, 0, 0, 0, 1, 0, 0, 0, 1, 0, 0, 0, 0x10]] := by decide +kernel

/-- R40: the order decides which requester's command is next, and keeps a requester's own order. -/
theorem test_order : ((((fresh.present 1 [0x04]).present 2 [0x0c, 0x00]).present 2 [0x00]).pending.map fun q => q.requester)
      = [1, 2, 2] ∧
    (State.accept { ((fresh.present 1 [0x04]).present 2 [0x0c, 0x00]).present 2 [0x00] with order := [2] }).map
      (fun r => (r.1, r.2.serving, r.2.pending.length)) = some ([0x0c, 0x00], 2, 2) := by decide

/-- R170. -/
theorem test_reset : (match step { keyed 1 with resetAsked := true } with
    | .next t => some (t.tables.valid, t.ctxs, t.pending)
    | _ => none) = some (false, fresh.ctxs, []) := by decide

/-! ## States that meet the invariant -/

theorem fresh_inv : BlockInv fresh := by
  refine ⟨by decide, by decide, { contents := rfl, lazy := fun _ => rfl, rom := nofun }, fun c hc => ?_⟩
  have hc : c = Context.empty := (List.mem_replicate.1 hc).2
  subst hc
  refine ⟨fun _ => rfl, ?_, ?_, ?_, ?_, ?_, ?_, ?_⟩ <;> intro h <;> cases h

theorem empty_ok (p : Config.Params) (T : TableSet) : ContextOk p T Context.empty := by
  refine ⟨fun _ => rfl, ?_, ?_, ?_, ?_, ?_, ?_, ?_⟩ <;> intro h <;> cases h

theorem schedule_length : (instanceOf 1).sched.length = (instanceOf 1).rounds.toNat := by decide +kernel

theorem instance_ok (rom : Bool) (T : TableSet) (h : T.valid = true) :
    ContextOk { Config.Params.default with sboxRom := rom } T (instanceOf 1) :=
  { unkeyed := nofun
    tablesValid := fun _ => h
    levelOk := fun _ => rfl
    size := fun _ => rfl
    rounds := fun _ => rfl
    keyLength := fun _ => rfl
    schedLength := fun _ => schedule_length
    schedule := fun _ => rfl }

theorem keyed_inv : BlockInv (keyed 1) := by
  refine ⟨by decide, by decide, { contents := rfl, lazy := fun _ => rfl, rom := nofun }, fun c hc => ?_⟩
  have hc : c ∈ [instanceOf 1, Context.empty] := hc
  simp only [List.mem_cons, List.not_mem_nil, or_false] at hc
  rcases hc with rfl | rfl
  · exact instance_ok false _ rfl
  · exact empty_ok _ _

theorem keyedRom_inv : BlockInv (keyedRom 1) := by
  refine ⟨by decide, by decide, { contents := rfl, lazy := nofun, rom := fun _ => ⟨rfl, rfl⟩ }, fun c hc => ?_⟩
  have hc : c ∈ [instanceOf 1, Context.empty] := hc
  simp only [List.mem_cons, List.not_mem_nil, or_false] at hc
  rcases hc with rfl | rfl
  · exact instance_ok true _ rfl
  · exact empty_ok _ _

theorem keyed_keyed : (keyed 1).Keyed 0 (instanceOf 1) := ⟨rfl, rfl⟩

/-- A frame presented to the block that holds an instance, and one presented to the fresh block. -/
theorem present_inv {s : State} (h : BlockInv s) (r : Nat) (f : List Byte) : BlockInv (s.present r f) :=
  ⟨h.legal, h.someContext, h.tables, h.contexts⟩

/-! ## Witnesses: frames -/

theorem witness_DecodeOfEncodeIsTheCommand :
    Config.Limits.default.maxBuf ≤ 0x7fffffff ∧ (Instr.keyset 0 (-1) sourceKey).wellFormed Config.Limits.default = true := by
  decide

theorem witness_DecodedFrameIsItsEncoding :
    decode Config.Limits.default [0x0c, 0x00] = .ok (.stat 0) := by decide

/-- Both clauses; the reserved opcodes at 0x00, 0x0D and 0xFF. -/
theorem witness_OpcodeSelectsTheCommand :
    decode Config.Limits.default [0x01, 0xff, 0xff, 0x01, 0xff] = .ok (.gfmul 0xff 0xff 511) ∧
    ∀ op ∈ [0x00, 0x0D, 0xff], (op = (0x00 : Byte) ∨ 0x0D ≤ op.toNat) ∧ (fresh.present 0 [op, 0x00]).resetAsked = false ∧
      (fresh.present 0 [op, 0x00]).accept = some ([op, 0x00], fresh) := by decide

theorem witness_MalformedFrameChangesNothing :
    (fresh.present 0 [0x04, 0x00]).params.Legal ∧ (fresh.present 0 [0x04, 0x00]).resetAsked = false ∧
    (fresh.present 0 [0x04, 0x00]).accept = some ([0x04, 0x00], fresh) ∧
    ∀ i : Instr, i.wellFormed (fresh.present 0 [0x04, 0x00]).limits = true → encode i ≠ [0x04, 0x00] := by
  refine ⟨by decide, rfl, by decide, fun i _ => ?_⟩
  cases i <;> simp [encode]

/-- Each clause at the least value it takes. -/
theorem witness_MustBeZeroBitsAreChecked :
    2 ≤ (0x02 : Byte).toNat ∧ (4 ≤ (0x04 : Byte).toNat ∨ 4 ≤ (0x00 : Byte).toNat) ∧
    (4 ≤ (0x00 : Byte).toNat ∨ 4 ≤ (0x04 : Byte).toNat) ∧
    (2 ^ 20 ≤ (0x00100000 : Word).toNat ∨ 2 ^ 20 ≤ (0 : Word).toNat ∨ 2 ^ 20 ≤ (0 : Word).toNat) := by decide

/-! ## Witnesses: a step -/

theorem witness_StepRunsTheDecodedCommand :
    (fresh.present 0 [0x04]).resetAsked = false ∧ (fresh.present 0 [0x04]).accept = some ([0x04], fresh) ∧
      decode (fresh.present 0 [0x04]).limits [0x04] = .ok .sbinit := by decide

theorem witness_IdleBlockKeepsItsState : fresh.resetAsked = false ∧ fresh.pending = [] := by decide

theorem witness_EveryCommandIsAnsweredOnce :
    BlockInv (fresh.present 3 [0xff]) ∧ (fresh.present 3 [0xff]).resetAsked = false ∧ (fresh.present 3 [0xff]).pending ≠ [] :=
  ⟨present_inv fresh_inv _ _, by decide, by decide⟩

theorem witness_RequesterOrderIsKept :
    ((fresh.present 1 [0x04]).present 1 [0x00]).accept = some ([0x04], { fresh.present 1 [0x00] with serving := 1 }) ∧
      2 ≠ ({ fresh.present 1 [0x00] with serving := 1 } : State).serving := by decide

theorem witness_AnyRequesterMayBeNext :
    ({ requester := 2, frame := [0x0c, 0x00] } : Request) ∈ ((fresh.present 1 [0x04]).present 2 [0x0c, 0x00]).pending := by
  decide

/-! ## Witnesses: reset and the invariant -/

theorem witness_ResetValues : ({ Config.Params.default with sboxRom := true } : Config.Params).sboxRom = true ∧
    Context.empty ∈ freshRom.ctxs := by decide

theorem witness_ResetEventGivesTheResetState : ({ keyed 1 with resetAsked := true } : State).resetAsked = true := rfl

/-- At both ends of the ranges of R5. -/
theorem witness_ResetSatisfiesTheInvariant :
    (⟨some 1, true, 8⟩ : Config.Params).Legal ∧ (⟨none, false, 0x7fffffff⟩ : Config.Params).Legal := by decide

theorem witness_EveryStepKeepsTheInvariant :
    BlockInv ((keyed 1).present 0 [0x0c, 0x00]) ∧ ∃ t, step ((keyed 1).present 0 [0x0c, 0x00]) = .next t :=
  ⟨present_inv keyed_inv _ _, _, rfl⟩

theorem witness_NoStepStops : BlockInv ((keyed 1).present 0 ([0x08, 0x00, 0, 0, 0, 8] ++ plain)) :=
  present_inv keyed_inv _ _

theorem witness_TableSpaceKeepsItsForm :
    Memory.wf (fresh.present 0 [0x04]).tables.sbox = true ∧ ∃ t, step (fresh.present 0 [0x04]) = .next t :=
  ⟨by decide, _, rfl⟩

theorem witness_OnlyResetClears :
    (∃ t, step ((keyed 1).present 0 [0x04]) = .next t) ∧ ((keyed 1).present 0 [0x04]).resetAsked = false ∧
      ((keyed 1).present 0 [0x04]).tables.valid = true ∧
      ((keyed 1).present 0 [0x04]).ctxs[0]? = some (instanceOf 1) ∧ (instanceOf 1).keyValid = true :=
  ⟨⟨_, rfl⟩, rfl, rfl, rfl, rfl⟩

theorem witness_OnlyBuildAndKeysetWrite :
    (∃ t, exec .sbinit fresh = .next t) ∧ exec (.enc 0 plain) fresh = .next (fresh.answer [0x04]) ∧
      (fresh.answer [0x04]).responses = fresh.responses ++ [{ requester := fresh.serving, bytes := [0x04] }] ∧
      (0x04 : Byte) ≠ 0x00 := ⟨⟨_, rfl⟩, rfl, rfl, by decide⟩

/-! ## Witnesses: errors -/

theorem witness_FailedCommandWritesNothing :
    exec (.decall 2 []) fresh = .next (fresh.answer [0x05]) ∧
      (fresh.answer [0x05]).responses = fresh.responses ++ [{ requester := fresh.serving, bytes := [0x05] }] ∧
      (0x05 : Byte) ≠ 0x00 := ⟨rfl, rfl, by decide⟩

/-- An error that applies, none that applies to a command that completes, and a pair that coincides. -/
theorem witness_FirstApplicableErrorIsReported :
    reported fresh (.enc 0 []) = some .noKey ∧ reported fresh .sbinit = none ∧ (∃ t, exec .sbinit fresh = .next t) ∧
      applies fresh (.enc 0 []) .noKey = true ∧ applies fresh (.enc 0 []) .invalidBlockLength = true :=
  ⟨by decide, by decide, ⟨_, rfl⟩, by decide, by decide⟩

/-- At the two levels where the expected size changes from 1. -/
theorem witness_InvalidKeyLengthCause : (0 : Byte).toNat < fresh.nctx ∧ sourceKey.length ≤ fresh.params.maxBuf ∧
    levelSupported fresh.params (1 : Word).toInt = true ∧ levelSupported fresh.params (2 : Word).toInt = true := by decide

theorem witness_InvalidBlockLengthCause : (keyed 1).Keyed 0 (instanceOf 1) ∧ plain.length ≤ (keyed 1).params.maxBuf :=
  ⟨keyed_keyed, by decide⟩

theorem witness_InvalidRangeCause : (keyed 1).Keyed 0 (instanceOf 1) ∧ ([] : List Byte).length ≤ (keyed 1).params.maxBuf :=
  ⟨keyed_keyed, by decide⟩

/-- A context that holds an instance and one that holds none. -/
theorem witness_NoKeyCause : (keyed 1).ctxs[(0 : Byte).toNat]? = some (instanceOf 1) ∧
    (keyed 1).ctxs[(1 : Byte).toNat]? = some Context.empty ∧ plain.length ≤ (keyed 1).params.maxBuf :=
  ⟨rfl, rfl, by decide⟩

/-- With `MAXLEVEL` a number; the level at it and above it is left to the statement. -/
theorem witness_UnsupportedLevelCause :
    (State.resetWith ⟨some 1, false, 8⟩ 1).params.Legal ∧ (0 : Byte).toNat < (State.resetWith ⟨some 1, false, 8⟩ 1).nctx ∧
      sourceKey.length ≤ (State.resetWith ⟨some 1, false, 8⟩ 1).params.maxBuf ∧ (0 : Word).toInt < 1 := by decide

/-! ## Witnesses: field arithmetic and the tables -/

/-- At the ends of the ranges. -/
theorem witness_GfMultIsTheFieldProduct : (255 < 256 ∧ 256 ≤ 256 ∧ 256 < 512 ∧ 255 < 256) ∧ 256 ≤ 511 ∧ 511 < 512 := by
  decide

theorem witness_GfExp7IsTheSeventhPower : (255 < 256 ∧ 256 ≤ 256 ∧ 256 < 512) ∧ 256 ≤ 511 ∧ 511 < 512 := by decide

/-- Before the build and after it. -/
theorem witness_SbinitBuildsOnce : fresh.tables.valid = false ∧ (keyed 1).tables.valid = true := ⟨rfl, rfl⟩

theorem witness_SbrdReadsTheEntry : BlockInv fresh ∧ BlockInv (keyed 1) := ⟨fresh_inv, keyed_inv⟩

theorem witness_TableReadNeedsPublishedTables : fresh.tables.valid = false ∧ (keyed 1).tables.valid = true := ⟨rfl, rfl⟩

/-! ## Witnesses: the key schedule -/

theorem witness_KeysetWritesTheContext : fresh.params.Legal ∧ (1 : Byte).toNat < fresh.nctx ∧
    sourceKey.length ≤ fresh.params.maxBuf ∧ levelSupported fresh.params (0 : Word).toInt = true ∧
    sourceKey.length = 8 * (variant (0 : Word).toInt).1 := by decide

/-- The last place a pass can go, and the two ends of the entries it writes. -/
theorem witness_PassWritesEightEntries : 8 + 8 ≤ (blankSched 16).length ∧ (8 ≤ 8 ∧ 8 < 8 + 8) ∧ (8 ≤ 15 ∧ 15 < 8 + 8) := by
  decide

theorem witness_ThinCipherIsEightRoundsOfLevelOne : (0 : Int) < 1 := by decide

/-! ## Witnesses: rounds and blocks -/

theorem witness_LaneTwoSelects : 0 < 20 ∧ 19 < 20 := by decide

theorem witness_RoundfOrsFourEntries : BlockInv fresh ∧ BlockInv (keyed 1) := ⟨fresh_inv, keyed_inv⟩

theorem witness_DecryptionAndEncryptionInvert :
    (keyed 1).tables.Readable ∧ Even 16 ∧ (instanceOf 1).sched.length = 16 ∧ plain.length = 8 :=
  ⟨readable_of_contents rfl rfl, by decide, by decide +kernel, by decide⟩

theorem witness_EncCompletes : BlockInv (keyed 1) ∧ (keyed 1).Keyed 0 (instanceOf 1) ∧ plain.length = 8 :=
  ⟨keyed_inv, keyed_keyed, by decide⟩

theorem witness_DecCompletes : BlockInv (keyed 1) ∧ (keyed 1).Keyed 0 (instanceOf 1) ∧ plain.length = 8 :=
  ⟨keyed_inv, keyed_keyed, by decide⟩

/-- Both clauses: a later state with the same state of the block, after another command was answered. -/
theorem witness_DecUndoesEnc : BlockInv (keyed 1) ∧ (keyed 1).Keyed 0 (instanceOf 1) ∧ plain.length = 8 ∧
    ((keyed 1).answer [0x00]).blockState = (keyed 1).blockState := ⟨keyed_inv, keyed_keyed, by decide, rfl⟩

/-- At both ends: the whole of a buffer, and the empty range. -/
theorem witness_DecrngDecryptsChunksAndPassesTheRest :
    BlockInv (keyed 1) ∧ (keyed 1).Keyed 0 (instanceOf 1) ∧ plain.length ≤ (keyed 1).params.maxBuf ∧
      (0 ≤ (0 : Word).toInt ∧ (0 : Word).toInt ≤ (8 : Word).toInt ∧ (8 : Word).toInt ≤ (plain.length : Int)) ∧
      (0 ≤ (8 : Word).toInt ∧ (8 : Word).toInt ≤ (8 : Word).toInt) := ⟨keyed_inv, keyed_keyed, by decide, by decide, by decide⟩

theorem witness_DecallDecryptsTheWholeBuffer :
    BlockInv (keyed 1) ∧ (keyed 1).Keyed 0 (instanceOf 1) ∧ plain.length ≤ (keyed 1).params.maxBuf :=
  ⟨keyed_inv, keyed_keyed, by decide⟩

theorem witness_DecallIsDecrngOfTheWholeBuffer : (keyed 1).params.Legal := by decide

theorem witness_StatReportsTheSixElements : fresh.ctxs[(1 : Byte).toNat]? = some Context.empty := rfl

/-! ## Witnesses: the whole block -/

theorem witness_ReadingCommandsCommute :
    (keyed 1).tables.valid = true ∧ readsOnly (.stat 0) = true ∧ readsOnly (.perm32 1) = true ∧
      (∃ t, exec (.stat 0) (keyed 1) = .next t) ∧ ∃ u, exec (.perm32 1) (keyed 1) = .next u :=
  ⟨rfl, rfl, rfl, ⟨_, rfl⟩, ⟨_, rfl⟩⟩

/-- Two states that differ in context 1. -/
theorem witness_ContextsDoNotInterfere :
    (keyed 1).params = ((keyed 1).setContext 1 (instanceOf 0)).params ∧
      (keyed 1).tables = ((keyed 1).setContext 1 (instanceOf 0)).tables ∧
      (keyed 1).nctx = ((keyed 1).setContext 1 (instanceOf 0)).nctx ∧
      (keyed 1).ctxs[(0 : Byte).toNat]? = ((keyed 1).setContext 1 (instanceOf 0)).ctxs[(0 : Byte).toNat]? ∧
      Instr.stat 0 ∈ [Instr.enc 0 plain, .dec 0 plain, .decrng 0 0 8 plain, .decall 0 plain, .stat 0] ∧
      1 ≠ (0 : Byte).toNat := ⟨rfl, rfl, rfl, rfl, by decide, by decide⟩

/-- An instance is held and the tables are valid in both; a command that is no STAT. -/
theorem witness_RomAndLazyTablesAnswerAlike :
    BlockInv (keyed 1) ∧ BlockInv (keyedRom 1) ∧ (keyed 1).params.sboxRom = false ∧
      (keyedRom 1).params = { (keyed 1).params with sboxRom := true } ∧ (keyedRom 1).ctxs = (keyed 1).ctxs ∧
      (keyedRom 1).serving = (keyed 1).serving ∧ (keyed 1).tables.valid = true ∧ ∀ ctx, Instr.sbinit ≠ .stat ctx :=
  ⟨keyed_inv, keyedRom_inv, rfl, rfl, rfl, rfl, rfl, nofun⟩

end Sys2Proof.Tests
end

/-!
The number of entries that each function of the key-schedule expander gives (42_key_schedule.md rules R98 to R102), and
the bounds on size and rounds under which the 32-bit fields of a context lose nothing.
-/

namespace Sys2Proof.Machine

@[simp] theorem length_blankSched (rounds : Nat) : (blankSched rounds).length = rounds := List.length_replicate

theorem length_schedBuildFrom (n off k i : Nat) (sched : List Subkey) (kb : KeyWords) :
    (schedBuildFrom n off k i sched kb).1.length = sched.length := by
  induction k generalizing i sched kb with
  | zero => rfl
  | succ k ih => simp [schedBuildFrom, ih]

@[simp] theorem length_schedBuild (kb : KeyWords) (sched : List Subkey) (n off : Nat) :
    (schedBuild kb sched n off).1.length = sched.length := length_schedBuildFrom ..

@[simp] theorem length_keyExpandThin (key : List Byte) : (keyExpandThin key).length = 8 := by simp [keyExpandThin]

@[simp] theorem length_expandBlock (key : List Byte) (rounds : Nat) (sched : List Subkey) (i : Nat) :
    (expandBlock key rounds sched i).length = sched.length := by simp [expandBlock]

theorem length_foldl_expandBlock (key : List Byte) (rounds : Nat) (blocks : List Nat) (sched : List Subkey) :
    (blocks.foldl (expandBlock key rounds) sched).length = sched.length := by
  induction blocks generalizing sched with
  | nil => rfl
  | cons i blocks ih => simp [ih]

@[simp] theorem length_keyExpandGeneral (key : List Byte) (size rounds : Nat) :
    (keyExpandGeneral key size rounds).length = rounds := by
  simp [keyExpandGeneral, length_foldl_expandBlock]

/-- R102: a schedule has as many entries as its variant has rounds. -/
@[simp] theorem length_keyExpand (level : Int) (key : List Byte) :
    (keyExpand level key).length = (variant level).2 := by
  unfold keyExpand
  split
  next h8 => rw [length_keyExpandThin, h8]
  next => exact length_keyExpandGeneral ..

theorem variant_rounds_le (level : Int) : (variant level).2 ≤ 16 * (variant level).1 := by
  unfold variant
  split <;> simp

section
variable {level : Word} {key : List Byte} (hmax : key.length ≤ 0x7fffffff)
  (hlen : key.length = 8 * (variant level.toInt).1)

include hmax hlen

/-- `SIZE` is stored without loss (log entry 7). -/
theorem keyedContext_size_toNat : (keyedContext level key).size.toNat = (variant level.toInt).1 :=
  Nat.mod_eq_of_lt (by omega)

/-- `ROUNDS` is stored without loss (log entry 7). -/
theorem keyedContext_rounds_toNat : (keyedContext level key).rounds.toNat = (variant level.toInt).2 :=
  have hrounds := variant_rounds_le level.toInt
  Nat.mod_eq_of_lt (by omega)

end

end Sys2Proof.Machine

/-!
Obligations on reset and on what every step keeps (10_state.md rules R11, R12, R20, R27, R28): O12, O14, O15, O17.
The invariant is taken through the operations that a command is made of; `exec_next` and `step_next` then say that there
are no others.
-/

namespace Sys2Proof.Machine

open Host

/-! ## The table set -/

@[simp] theorem atReset_valid (rom : Bool) : (TableSet.atReset rom).valid = rom := by cases rom <;> rfl
@[simp] theorem atReset_builds (rom : Bool) : (TableSet.atReset rom).builds = 0 := by cases rom <;> rfl

theorem tablesOk_atReset (p : Config.Params) : TablesOk p (TableSet.atReset p.sboxRom) := by
  cases h : p.sboxRom
  case false => exact { contents := rfl, lazy := fun _ => rfl, rom := by simp [h] }
  case true => exact { contents := rfl, lazy := by simp [h], rom := fun _ => ⟨rfl, rfl⟩ }

/-- A build starts on tables that are no constants and were never built, so it is the first one counted. -/
theorem TablesOk.ensureSbox {p : Config.Params} {T : TableSet} (h : TablesOk p T) :
    TablesOk p (ensureSbox T) := by
  rcases ensureSbox_cases T with heq | ⟨hinvalid, heq⟩ <;> rw [heq]
  case inl => exact h
  case inr =>
    exact
      { contents := rfl
        lazy := fun hlazy => by simp [h.lazy hlazy, hinvalid]
        rom := fun hrom => absurd (h.rom hrom).1 (by simp [hinvalid]) }

/-! ## The contexts -/

theorem contextOk_empty (p : Config.Params) (T : TableSet) : ContextOk p T Context.empty := by
  constructor <;> simp [Context.empty]

/-- Of the tables a context asks only that they be valid once it is keyed. -/
theorem ContextOk.of_valid {p : Config.Params} {T U : TableSet} {c : Context} (h : ContextOk p T c)
    (hU : U.valid = true) : ContextOk p U c :=
  { h with tablesValid := fun _ => hU }

/-- R20 of the context that KEYSET writes: with a legal `MAXBUF` the key is so short that `SIZE` and `ROUNDS` fit in
their 32 bits (log entry 7). -/
theorem contextOk_keyedContext {p : Config.Params} {T : TableSet} {level : Word} {key : List Byte} (hp : p.Legal)
    (hT : T.valid = true) (hfit : key.length ≤ p.maxBuf) (hlevel : levelSupported p level.toInt = true)
    (hlen : key.length = 8 * (variant level.toInt).1) : ContextOk p T (keyedContext level key) := by
  obtain ⟨-, -, hmaxBuf⟩ := hp
  have hsize := keyedContext_size_toNat (hfit.trans hmaxBuf) hlen
  have hrounds := keyedContext_rounds_toNat (hfit.trans hmaxBuf) hlen
  exact
    { unkeyed := nofun
      tablesValid := fun _ => hT
      levelOk := fun _ => hlevel
      size := fun _ => hsize
      rounds := fun _ => hrounds
      keyLength := fun _ => by rw [hsize]; exact hlen
      schedLength := fun _ => by rw [hrounds]; exact length_keyExpand ..
      schedule := fun _ => rfl }

/-! ## The invariant through each operation -/

theorem blockInv_resetWith {p : Config.Params} {n : Nat} (hp : p.Legal) (hn : 1 ≤ n) :
    BlockInv (State.resetWith p n) where
  legal := hp
  someContext := by simpa [State.nctx, State.resetWith] using hn
  tables := tablesOk_atReset p
  contexts c hc := by rw [List.eq_of_mem_replicate hc]; exact contextOk_empty ..

/-- The invariant speaks of the block's own state only. -/
theorem BlockInv.of_blockState_eq {s t : State} (h : BlockInv s) (heq : t.blockState = s.blockState) :
    BlockInv t := by
  obtain ⟨hp, hT, hc⟩ : t.params = s.params ∧ t.tables = s.tables ∧ t.ctxs = s.ctxs := by
    simpa [State.blockState] using heq
  exact
    { legal := by rw [hp]; exact h.legal
      someContext := by rw [State.nctx, hc]; exact h.someContext
      tables := by rw [hp, hT]; exact h.tables
      contexts := by rw [hp, hT, hc]; exact h.contexts }

theorem accept_blockState {s t : State} {f : List Byte} (ha : s.accept = some (f, t)) :
    t.blockState = s.blockState := by
  obtain ⟨hp, hT, hc, -⟩ := accept_keeps ha
  rw [State.blockState, hp, hT, hc, State.blockState]

theorem BlockInv.answer {s : State} (h : BlockInv s) (bs : List Byte) : BlockInv (s.answer bs) :=
  h.of_blockState_eq (answer_blockState s bs)

theorem BlockInv.accept {s t : State} {f : List Byte} (h : BlockInv s) (ha : s.accept = some (f, t)) :
    BlockInv t := h.of_blockState_eq (accept_blockState ha)

theorem BlockInv.doReset {s : State} (h : BlockInv s) : BlockInv s.doReset :=
  (blockInv_resetWith h.legal h.someContext).of_blockState_eq rfl

theorem BlockInv.ensureTables {s : State} (h : BlockInv s) : BlockInv s.ensureTables where
  legal := h.legal
  someContext := h.someContext
  tables := h.tables.ensureSbox
  contexts c hc := (h.contexts c hc).of_valid (ensureSbox_valid _)

theorem BlockInv.setContext {s : State} (h : BlockInv s) (ctx : Byte) {c : Context}
    (hc : ContextOk s.params s.tables c) : BlockInv (s.setContext ctx c) where
  legal := h.legal
  someContext := by rw [setContext_nctx]; exact h.someContext
  tables := h.tables
  contexts d hd := by
    rcases List.mem_or_eq_of_mem_set hd with hd | rfl
    · exact h.contexts d hd
    · exact hc

theorem BlockInv.exec {i : Instr} {s t : State} (h : BlockInv s) (he : exec i s = .next t) : BlockInv t := by
  rcases exec_next he with ⟨e, rfl⟩ | ⟨rest, rfl, -⟩ | ⟨rest, rfl, -⟩ |
    ⟨ctx, level, key, -, -, hfit, hlevel, hlen, rfl⟩
  · exact h.answer _
  · exact h.answer _
  · exact h.ensureTables.answer _
  · have hc : ContextOk s.ensureTables.params s.ensureTables.tables (keyedContext level key) :=
      contextOk_keyedContext h.legal (ensureSbox_valid _) (bytesFit_iff.1 hfit) hlevel hlen
    exact (h.ensureTables.setContext ctx hc).answer _

/-! ## The canonical form of the table space -/

theorem exec_keeps_memory_wf {i : Instr} {s t : State} (h : Memory.wf s.tables.sbox = true)
    (he : exec i s = .next t) : Memory.wf t.tables.sbox = true := by
  rcases exec_next he with ⟨e, rfl⟩ | ⟨rest, rfl, -⟩ | ⟨rest, rfl, -⟩ | ⟨ctx, level, key, -, -, -, -, -, rfl⟩
  · exact h
  · exact h
  · exact ensureSbox_wf h
  · exact ensureSbox_wf h

/-! ## The obligations -/

/-- Settles O12. -/
theorem resetValues : Obligations.ResetValues := by
  unfold Obligations.ResetValues
  intro p n
  refine ⟨List.length_replicate, atReset_valid _, atReset_builds _, ?entries, ?contexts⟩
  case entries =>
    intro hrom t i
    have htables : (State.resetWith p n).tables = TableSet.atReset true := by rw [← hrom]; rfl
    rw [htables]
    exact read_of_contents rfl rfl t i
  case contexts =>
    intro c hc
    rw [List.eq_of_mem_replicate hc]
    exact ⟨rfl, rfl, rfl, rfl, rfl⟩

/-- Settles O14. -/
theorem resetSatisfiesTheInvariant : Obligations.ResetSatisfiesTheInvariant := by
  unfold Obligations.ResetSatisfiesTheInvariant
  exact ⟨blockInv_resetWith (by decide) (by decide), fun p n => blockInv_resetWith⟩

/-- Settles O15, by the four things a step can do. -/
theorem everyStepKeepsTheInvariant : Obligations.EveryStepKeepsTheInvariant := by
  unfold Obligations.EveryStepKeepsTheInvariant
  intro s t h hstep
  rcases step_next hstep with ⟨-, rfl⟩ | ⟨-, -, rfl⟩ | ⟨f, s1, -, ha, ⟨i, -, he⟩ | ⟨e, -, rfl⟩⟩
  · exact h.doReset
  · exact h
  · exact (h.accept ha).exec he
  · exact (h.accept ha).answer _

/-- Settles O17, by the four things a step can do. -/
theorem tableSpaceKeepsItsForm : Obligations.TableSpaceKeepsItsForm := by
  unfold Obligations.TableSpaceKeepsItsForm
  intro s t h hstep
  rcases step_next hstep with ⟨-, rfl⟩ | ⟨-, -, rfl⟩ | ⟨f, s1, -, ha, hrun⟩
  · exact atReset_wf _
  · exact h
  · obtain ⟨-, htables, -⟩ := accept_keeps ha
    rw [← htables] at h
    rcases hrun with ⟨i, -, he⟩ | ⟨e, -, rfl⟩
    · exact exec_keeps_memory_wf h he
    · exact h

end Sys2Proof.Machine

/-!
Obligations on what a command writes and on what it depends on (10_state.md rule R29; 20_memory.md rules R38, R43, R46):
O19, O55.
-/

namespace Sys2Proof.Machine

open Host

/-! ## Answers -/

@[simp] theorem answer_inj {s : State} {as bs : List Byte} : s.answer as = s.answer bs ↔ as = bs := by
  constructor
  · intro h
    simpa using congrArg State.responses h
  · rintro rfl
    rfl

/-- The answer last given shows its status byte. -/
theorem status_eq_of_responses_eq {l : List Response} {r : Nat} {a b : Byte} {as bs : List Byte}
    (h : l ++ [{ requester := r, bytes := a :: as }] = l ++ [{ requester := r, bytes := b :: bs }]) : a = b := by
  have hparts : a = b ∧ as = bs := by simpa using h
  exact hparts.1

theorem limits_congr {s u : State} (hp : s.params = u.params) (hn : s.nctx = u.nctx) : s.limits = u.limits := by
  simp [State.limits, hp, hn]

/-- Two outcomes, one from `s` and one from `u`, are the same answer, or neither is an answer alone. -/
def AnswersAlike (s u : State) (o p : Out) : Prop := ∀ bs, o = .next (s.answer bs) ↔ p = .next (u.answer bs)

section
variable {s u : State}

theorem AnswersAlike.answer (bs : List Byte) : AnswersAlike s u (.next (s.answer bs)) (.next (u.answer bs)) := by
  intro as
  simp

theorem AnswersAlike.deliver (v : Except Fault Result) : AnswersAlike s u (deliver s v) (deliver u v) := by
  cases v with
  | ok r => exact .answer _
  | error f => intro bs; simp [Machine.deliver]

theorem AnswersAlike.withContext {ctx : Byte} {k l : Context → Out} (hc : s.ctxs[ctx.toNat]? = u.ctxs[ctx.toNat]?)
    (h : ∀ c, AnswersAlike s u (k c) (l c)) : AnswersAlike s u (withContext s ctx k) (withContext u ctx l) := by
  cases hu : u.ctxs[ctx.toNat]? with
  | none => rw [withContext_of_none (hc.trans hu), withContext_of_none hu]; exact .answer _
  | some c => rw [withContext_of_some (hc.trans hu), withContext_of_some hu]; exact h c

theorem AnswersAlike.withBytes {bs : List Byte} {k l : Out} (hlim : s.limits = u.limits)
    (h : AnswersAlike s u k l) : AnswersAlike s u (withBytes s bs k) (withBytes u bs l) := by
  unfold Machine.withBytes
  rw [hlim]
  split
  · exact h
  · exact .answer _

theorem AnswersAlike.withKey {c : Context} {k l : Out} (h : AnswersAlike s u k l) :
    AnswersAlike s u (withKey s c k) (withKey u c l) := by
  unfold Machine.withKey
  split
  · exact h
  · exact .answer _

theorem AnswersAlike.withBlock {data : List Byte} {k l : Out} (h : AnswersAlike s u k l) :
    AnswersAlike s u (withBlock s data k) (withBlock u data l) := by
  unfold Machine.withBlock
  split
  · exact h
  · exact .answer _

/-! ## The commands that read one context -/

variable {ctx : Byte} (hT : s.tables = u.tables) (hlim : s.limits = u.limits)
  (hc : s.ctxs[ctx.toNat]? = u.ctxs[ctx.toNat]?)

include hT hlim hc

theorem execEnc_alike (data : List Byte) : AnswersAlike s u (execEnc ctx data s) (execEnc ctx data u) := by
  unfold execEnc
  rw [hT]
  exact .withContext hc fun _ => .withBytes hlim <| .withKey <| .withBlock <| .deliver _

theorem execDec_alike (data : List Byte) : AnswersAlike s u (execDec ctx data s) (execDec ctx data u) := by
  unfold execDec
  rw [hT]
  exact .withContext hc fun _ => .withBytes hlim <| .withKey <| .withBlock <| .deliver _

theorem execDecrng_alike (start stop : Word) (buf : List Byte) :
    AnswersAlike s u (execDecrng ctx start stop buf s) (execDecrng ctx start stop buf u) := by
  unfold execDecrng
  rw [hT]
  refine .withContext hc fun _ => .withBytes hlim <| .withKey ?_
  split
  · exact .deliver _
  · exact .answer _

theorem execDecall_alike (buf : List Byte) : AnswersAlike s u (execDecall ctx buf s) (execDecall ctx buf u) := by
  unfold execDecall
  rw [hT]
  exact .withContext hc fun _ => .withBytes hlim <| .withKey <| .deliver _

omit hlim in
theorem execStat_alike : AnswersAlike s u (execStat ctx s) (execStat ctx u) := by
  unfold execStat
  rw [hT]
  exact .withContext hc fun _ => .answer _

end

/-! ## KEYSET -/

/-- The state in which a successful KEYSET ends (R104). -/
def State.afterKeyset (s : State) (ctx : Byte) (level : Word) (key : List Byte) : State :=
  (s.ensureTables.setContext ctx (keyedContext level key)).answer [0x00]

/-- KEYSET always ends: with the same error from both states, or with its context written in both. -/
theorem execKeyset_same_branch {s u : State} {ctx : Byte} (hp : s.params = u.params) (hlim : s.limits = u.limits)
    (hc : s.ctxs[ctx.toNat]? = u.ctxs[ctx.toNat]?) (level : Word) (key : List Byte) :
    (∃ e : Error, execKeyset ctx level key s = .next (s.answer [e.code]) ∧
        execKeyset ctx level key u = .next (u.answer [e.code])) ∨
      (execKeyset ctx level key s = .next (s.afterKeyset ctx level key) ∧
        execKeyset ctx level key u = .next (u.afterKeyset ctx level key)) := by
  unfold execKeyset
  cases hu : u.ctxs[ctx.toNat]? with
  | none =>
    rw [withContext_of_none (hc.trans hu), withContext_of_none hu]
    exact .inl ⟨.illegalCommand, rfl, rfl⟩
  | some c =>
    rw [withContext_of_some (hc.trans hu), withContext_of_some hu, withBytes, withBytes, hlim, hp]
    split
    next hfit =>
      split
      next hlevel =>
        split
        next hlen => exact .inr ⟨rfl, rfl⟩
        next hlen => exact .inl ⟨.invalidKeyLength, rfl, rfl⟩
      next hlevel => exact .inl ⟨.unsupportedLevel, rfl, rfl⟩
    next hfit => exact .inl ⟨.illegalCommand, rfl, rfl⟩

/-! ## The obligations -/

/-- Settles O19, by the four things a command can do. -/
theorem onlyBuildAndKeysetWrite : Obligations.OnlyBuildAndKeysetWrite := by
  unfold Obligations.OnlyBuildAndKeysetWrite
  intro i s t h
  rcases exec_next h with ⟨e, rfl⟩ | ⟨rest, rfl, -⟩ | ⟨rest, rfl, hneeds⟩ |
    ⟨ctx, level, key, rfl, hctx, -, -, -, rfl⟩
  · exact ⟨.inl rfl, .inl rfl, fun _ _ _ => rfl⟩
  · exact ⟨.inl rfl, .inl rfl, fun _ _ _ => rfl⟩
  · exact ⟨(ensureSbox_cases s.tables).imp_right fun ⟨hinvalid, hbuilt⟩ => ⟨hinvalid, hneeds, hbuilt⟩, .inl rfl,
      fun b hb hne => absurd (status_eq_of_responses_eq hb).symm hne⟩
  · exact ⟨(ensureSbox_cases s.tables).imp_right fun ⟨hinvalid, hbuilt⟩ => ⟨hinvalid, rfl, hbuilt⟩,
      .inr ⟨ctx, level, key, keyedContext level key, rfl, hctx, rfl, rfl, rfl, rfl, rfl, rfl, rfl, rfl⟩,
      fun b hb hne => absurd (status_eq_of_responses_eq hb).symm hne⟩

/-- Settles O55. -/
theorem contextsDoNotInterfere : Obligations.ContextsDoNotInterfere := by
  unfold Obligations.ContextsDoNotInterfere
  intro s u ctx start stop level data hp hT hn hc
  have hlim := limits_congr hp hn
  constructor
  case left =>
    intro i hi
    simp only [List.mem_cons, List.not_mem_nil, or_false] at hi
    rcases hi with rfl | rfl | rfl | rfl | rfl
    · exact execEnc_alike hT hlim hc data
    · exact execDec_alike hT hlim hc data
    · exact execDecrng_alike hT hlim hc start stop data
    · exact execDecall_alike hT hlim hc data
    · exact execStat_alike hT hc
  case right =>
    rcases execKeyset_same_branch hp hlim hc level data with ⟨e, hs, hu⟩ | ⟨hs, hu⟩
    · exact ⟨_, _, [e.code], hs, hu, rfl, rfl, hT, hc, fun k _ => ⟨rfl, rfl⟩⟩
    · refine ⟨_, _, [0x00], hs, hu, rfl, rfl, congrArg ensureSbox hT, ?own, fun k hk => ⟨?_, ?_⟩⟩
      case own => simp [State.afterKeyset, List.getElem?_set_self', hc]
      all_goals exact List.getElem?_set_ne hk.symm

end Sys2Proof.Machine

/-!
No step stops (20_memory.md rules R31, R32; 70_reset_and_hazards.md rule R181): O16. A read has a value wherever the
invariant lets a command make it; the loops of the block engine and of the buffer helper read nothing else; so every
command ends.
-/

namespace Sys2Proof.Machine

open Host

/-! ## Computations that meet no read without a value -/

/-- Every read that a computation makes has a value (R31, R32). -/
def HasValue {α : Type} (x : Except Fault α) : Prop := ∃ v, x = .ok v

section
variable {α β : Type}

theorem HasValue.ok (v : α) : HasValue (.ok v) := ⟨v, rfl⟩

theorem HasValue.bind {x : Except Fault α} {f : α → Except Fault β} (hx : HasValue x) (hf : ∀ v, HasValue (f v)) :
    HasValue (x >>= f) := by
  obtain ⟨v, rfl⟩ := hx
  exact hf v

theorem HasValue.map {x : Except Fault α} (hx : HasValue x) (f : α → β) : HasValue (x.map f) := by
  obtain ⟨v, rfl⟩ := hx
  exact .ok (f v)

end

theorem hasValue_readSched {sched : List Subkey} {n : Nat} (h : n < sched.length) : HasValue (readSched sched n) :=
  ⟨_, readSched_of_lt h⟩

section
variable {T : TableSet} {sched : List Subkey} {rounds : Nat} (hT : T.Readable)

include hT

theorem hasValue_read (t : BitVec 2) (i : BitVec 10) : HasValue (T.read t i) := hT.read_ok t i

theorem hasValue_roundF (p : Word) (sk : Subkey) : HasValue (roundF T p sk) := by
  unfold roundF lookup
  exact (hasValue_read hT ..).bind fun _ => (hasValue_read hT ..).bind fun _ => (hasValue_read hT ..).bind fun _ =>
    (hasValue_read hT ..).bind fun _ => .ok _

theorem hasValue_roundPair {i j : Nat} (hi : i < sched.length) (hj : j < sched.length) (lr : Word × Word) :
    HasValue (roundPair T sched i j lr) := by
  unfold roundPair
  exact (hasValue_readSched hi).bind fun _ => (hasValue_roundF hT ..).bind fun _ =>
    (hasValue_readSched hj).bind fun _ => (hasValue_roundF hT ..).bind fun _ => .ok _

theorem hasValue_encryptFrom {n i : Nat} (h : i + 2 * n ≤ sched.length) (lr : Word × Word) :
    HasValue (encryptFrom T sched n i lr) := by
  induction n generalizing i lr with
  | zero => exact .ok lr
  | succ n ih =>
    exact (hasValue_roundPair hT (by omega) (by omega) lr).bind fun lr' => ih (by omega) lr'

theorem hasValue_decryptFrom {n : Nat} (h : 2 * n ≤ sched.length) (lr : Word × Word) :
    HasValue (decryptFrom T sched n lr) := by
  induction n generalizing lr with
  | zero => exact .ok lr
  | succ n ih =>
    exact (hasValue_roundPair hT (by omega) (by omega) lr).bind fun lr' => ih (by omega) lr'

variable (hsched : rounds ≤ sched.length)

include hsched

theorem hasValue_encryptBlock (data : List Byte) : HasValue (encryptBlock T sched rounds data) :=
  (hasValue_encryptFrom hT (by omega) _).bind fun _ => .ok _

theorem hasValue_decryptBlock (data : List Byte) : HasValue (decryptBlock T sched rounds data) :=
  (hasValue_decryptFrom hT (by omega) _).bind fun _ => .ok _

theorem hasValue_decryptChunks (buf : List Byte) (stop n pos : Nat) (out : List Byte) :
    HasValue (decryptChunks T sched rounds buf stop n pos out) := by
  induction n generalizing pos out with
  | zero => exact .ok _
  | succ n ih => exact (hasValue_decryptBlock hT hsched _).bind fun chunk => ih (pos + 8) (out ++ chunk)

theorem hasValue_decryptRange (buf : List Byte) (start stop : Nat) :
    HasValue (decryptRange T sched rounds buf start stop) :=
  hasValue_decryptChunks hT hsched ..

end

/-! ## What the invariant lets a command read -/

theorem TablesOk.readable {p : Config.Params} {T : TableSet} (h : TablesOk p T) (hvalid : T.valid = true) :
    T.Readable :=
  readable_of_contents hvalid (by simp [h.contents, hvalid])

theorem BlockInv.readable_ensureSbox {s : State} (h : BlockInv s) : (ensureSbox s.tables).Readable :=
  h.tables.ensureSbox.readable (ensureSbox_valid _)

/-- R27 (a), R20: a keyed context stands with tables that can be read, and its schedule has an entry for every round. -/
theorem BlockInv.keyed_readable {s : State} (h : BlockInv s) {ctx : Byte} {c : Context} (hkeyed : s.Keyed ctx c) :
    s.tables.Readable ∧ c.rounds.toNat ≤ c.sched.length := by
  obtain ⟨hget, hkey⟩ := hkeyed
  have hok := h.contexts c (List.mem_of_getElem? hget)
  exact ⟨h.tables.readable (hok.tablesValid hkey), (hok.schedLength hkey).ge⟩

/-! ## Commands that end -/

/-- The command ends: it gives a next state (R181). -/
def Ends (o : Out) : Prop := ∃ t, o = .next t

section
variable {s : State}

theorem Ends.next (t : State) : Ends (.next t) := ⟨t, rfl⟩

theorem Ends.deliver {v : Except Fault Result} (h : HasValue v) : Ends (deliver s v) := by
  obtain ⟨r, rfl⟩ := h
  exact .next _

theorem Ends.withContext {ctx : Byte} {k : Context → Out} (h : ∀ c, s.ctxs[ctx.toNat]? = some c → Ends (k c)) :
    Ends (withContext s ctx k) := by
  cases hc : s.ctxs[ctx.toNat]? with
  | none => rw [withContext_of_none hc]; exact .next _
  | some c => rw [withContext_of_some hc]; exact h c hc

theorem Ends.withBytes {bs : List Byte} {k : Out} (h : Ends k) : Ends (withBytes s bs k) := by
  unfold Machine.withBytes
  split
  · exact h
  · exact .next _

theorem Ends.withKey {c : Context} {k : Out} (h : c.keyValid = true → Ends k) : Ends (withKey s c k) := by
  unfold Machine.withKey
  split
  next hkey => exact h hkey
  next => exact .next _

theorem Ends.withBlock {data : List Byte} {k : Out} (h : Ends k) : Ends (withBlock s data k) := by
  unfold Machine.withBlock
  split
  · exact h
  · exact .next _

/-- The guards that the commands on a keyed context share, up to the key: behind them the context is keyed. -/
theorem Ends.keyedGuards {ctx : Byte} {bs : List Byte} {k : Context → Out} (h : ∀ c, s.Keyed ctx c → Ends (k c)) :
    Ends (Machine.withContext s ctx fun c => Machine.withBytes s bs <| Machine.withKey s c (k c)) :=
  .withContext fun c hget => .withBytes <| .withKey fun hkey => h c ⟨hget, hkey⟩

theorem execKeyset_ends (ctx : Byte) (level : Word) (key : List Byte) (s : State) :
    Ends (execKeyset ctx level key s) := by
  rcases execKeyset_same_branch (s := s) (ctx := ctx) rfl rfl rfl level key with ⟨e, h, -⟩ | ⟨h, -⟩
  · exact ⟨_, h⟩
  · exact ⟨_, h⟩

/-- Every command ends in a state of the invariant. -/
theorem BlockInv.exec_ends (h : BlockInv s) (i : Instr) : Ends (Machine.exec i s) := by
  cases i with
  | gfmul a b m => exact .next _
  | gfexp7 b m => exact .next _
  | perm32 x => exact .next _
  | sbinit => exact .next _
  | sbrd t n => exact .deliver <| (hasValue_read h.readable_ensureSbox t n).map _
  | keyset ctx level key => exact execKeyset_ends ctx level key s
  | roundf p sk0 sk1 sk2 => exact .deliver <| (hasValue_roundF h.readable_ensureSbox p _).map _
  | enc ctx data =>
    refine .keyedGuards fun c hkeyed => .withBlock <| .deliver ?_
    obtain ⟨hT, hsched⟩ := h.keyed_readable hkeyed
    exact (hasValue_encryptBlock hT hsched data).map _
  | dec ctx data =>
    refine .keyedGuards fun c hkeyed => .withBlock <| .deliver ?_
    obtain ⟨hT, hsched⟩ := h.keyed_readable hkeyed
    exact (hasValue_decryptBlock hT hsched data).map _
  | decrng ctx start stop buf =>
    refine .keyedGuards fun c hkeyed => ?_
    obtain ⟨hT, hsched⟩ := h.keyed_readable hkeyed
    split
    · exact .deliver <| (hasValue_decryptRange hT hsched ..).map _
    · exact .next _
  | decall ctx buf =>
    refine .keyedGuards fun c hkeyed => .deliver ?_
    obtain ⟨hT, hsched⟩ := h.keyed_readable hkeyed
    exact (hasValue_decryptRange hT hsched ..).map _
  | stat ctx => exact .withContext fun c _ => .next _

end

/-! ## The obligation -/

/-- Settles O16: only the run of a decoded command could stop, and accepting it keeps the invariant. -/
theorem noStepStops : Obligations.NoStepStops := by
  unfold Obligations.NoStepStops
  intro s h
  unfold step
  split
  next => exact ⟨_, rfl⟩
  next =>
    split
    next => exact ⟨_, rfl⟩
    next f s1 ha =>
      split
      next i _ => exact (h.accept ha).exec_ends i
      next => exact ⟨_, rfl⟩

end Sys2Proof.Machine

/-!
Obligations on the order of commands and on reads (20_memory.md rules R31, R40, R43): O7, O10, O11, O36, O54.
-/

namespace Sys2Proof.Machine

open Host

/-! ## Accepting a command -/

theorem accept_limits {s t : State} {f : List Byte} (ha : s.accept = some (f, t)) : t.limits = s.limits := by
  obtain ⟨hp, -, hc, -⟩ := accept_keeps ha
  exact limits_congr hp (congrArg List.length hc)

/-- The accepted command stands in `pending` behind no other of its requester, and it alone leaves (R40). -/
theorem accept_pending {s t : State} {f : List Byte} (ha : s.accept = some (f, t)) :
    ∃ before after, s.pending = before ++ { requester := t.serving, frame := f } :: after ∧
      t.pending = before ++ after ∧ ∀ p ∈ before, p.requester ≠ t.serving := by
  obtain ⟨q, order, harb, rfl, ht⟩ := accept_some ha
  have hserving : t.serving = q.requester := by rw [ht]
  rw [hserving]
  exact arbitrate_some harb

/-- Where `order` names a requester with a command pending, its oldest is the next (R40). -/
theorem arbitrate_of_takeOldestOf {pending rest : List Request} {r : Nat} {q : Request} (order : List Nat)
    (h : takeOldestOf r pending = some (q, rest)) : arbitrate pending (r :: order) = some (q, rest, order) := by
  cases pending with
  | nil => cases h
  | cons p l => simp [arbitrate, h]

theorem step_of_decode_ok {s s1 : State} {f : List Byte} {i : Instr} (hreset : s.resetAsked = false)
    (ha : s.accept = some (f, s1)) (hdecode : decode s.limits f = .ok i) : step s = exec i s1 := by
  simp [step, hreset, ha, accept_limits ha, hdecode]

/-! ## Commands that only read -/

theorem ensureTables_of_valid {s : State} (h : s.tables.valid = true) : s.ensureTables = s := by
  simp [State.ensureTables, ensureSbox_of_valid h]

/-- R43: with valid tables a reading command does nothing but answer. -/
theorem exec_next_of_readsOnly {i : Instr} {s t : State} (hvalid : s.tables.valid = true)
    (hreads : readsOnly i = true) (he : exec i s = .next t) : ∃ bs, t = s.answer bs := by
  rcases exec_next he with ⟨e, rfl⟩ | ⟨rest, rfl, -⟩ | ⟨rest, rfl, -⟩ | ⟨ctx, level, key, rfl, -⟩
  · exact ⟨_, rfl⟩
  · exact ⟨_, rfl⟩
  · rw [ensureTables_of_valid hvalid]; exact ⟨_, rfl⟩
  · cases hreads

/-- With valid tables the answer of a reading command is fixed by the block's own state. -/
theorem exec_alike_of_readsOnly {i : Instr} {s u : State} (hvalid : s.tables.valid = true)
    (hreads : readsOnly i = true) (hp : s.params = u.params) (hT : s.tables = u.tables) (hctxs : s.ctxs = u.ctxs) :
    AnswersAlike s u (exec i s) (exec i u) := by
  have hlim : s.limits = u.limits := limits_congr hp (congrArg List.length hctxs)
  have hc (ctx : Byte) : s.ctxs[ctx.toNat]? = u.ctxs[ctx.toNat]? := by rw [hctxs]
  have hs := ensureTables_of_valid hvalid
  have hu := ensureTables_of_valid (hT ▸ hvalid)
  cases i with
  | gfmul a b m => exact .answer _
  | gfexp7 b m => exact .answer _
  | perm32 x => exact .answer _
  | sbinit => cases hreads
  | sbrd t n =>
    simp only [exec, execSbrd, hs, hu, hT]
    exact .deliver _
  | keyset ctx level key => cases hreads
  | roundf p sk0 sk1 sk2 =>
    simp only [exec, execRoundf, hs, hu, hT]
    exact .deliver _
  | enc ctx data => exact execEnc_alike hT hlim (hc ctx) data
  | dec ctx data => exact execDec_alike hT hlim (hc ctx) data
  | decrng ctx start stop buf => exact execDecrng_alike hT hlim (hc ctx) start stop buf
  | decall ctx buf => exact execDecall_alike hT hlim (hc ctx) buf
  | stat ctx => exact execStat_alike hT (hc ctx)

/-- An answer given in between does not change what a reading command answers. -/
theorem exec_answer_of_readsOnly {i : Instr} {s : State} {bs : List Byte} (hvalid : s.tables.valid = true)
    (hreads : readsOnly i = true) (he : exec i s = .next (s.answer bs)) (as : List Byte) :
    exec i (s.answer as) = .next ((s.answer as).answer bs) :=
  (exec_alike_of_readsOnly (u := s.answer as) hvalid hreads rfl rfl rfl bs).1 he

/-! ## The obligations -/

/-- Settles O10: the accepted command is the first of its requester, and the others keep their places. -/
theorem requesterOrderIsKept : Obligations.RequesterOrderIsKept := by
  unfold Obligations.RequesterOrderIsKept
  intro s t f ha
  obtain ⟨before, after, hs, ht, hbefore⟩ := accept_pending ha
  rw [hs, ht]
  constructor
  case left =>
    have hnone : (before.filter fun q => q.requester = t.serving) = [] := by simpa using hbefore
    simp [hnone]
  case right =>
    intro r hr
    simp [hr.symm]

/-- Settles O11: the order that names the requester makes it the next. -/
theorem anyRequesterMayBeNext : Obligations.AnyRequesterMayBeNext := by
  unfold Obligations.AnyRequesterMayBeNext
  intro s q hq
  obtain ⟨⟨oldest, rest⟩, htake⟩ := takeOldestOf_isSome hq rfl
  obtain ⟨hrequester, -⟩ := takeOldestOf_some htake
  refine ⟨[q.requester], oldest.frame,
    { s with pending := rest, order := [], serving := oldest.requester }, ?_, hrequester⟩
  simp [State.accept, arbitrate_of_takeOldestOf [] htake]

/-- Settles O54. -/
theorem readingCommandsCommute : Obligations.ReadingCommandsCommute := by
  unfold Obligations.ReadingCommandsCommute
  intro i j s t u hvalid hi hj hei hej
  obtain ⟨bi, rfl⟩ := exec_next_of_readsOnly hvalid hi hei
  obtain ⟨bj, rfl⟩ := exec_next_of_readsOnly hvalid hj hej
  exact ⟨bi, bj, rfl, rfl, exec_answer_of_readsOnly hvalid hj hej bi, exec_answer_of_readsOnly hvalid hi hei bj⟩

/-- Settles O7. -/
theorem stepRunsTheDecodedCommand : Obligations.StepRunsTheDecodedCommand := by
  unfold Obligations.StepRunsTheDecodedCommand
  intro s s1 f i hreset ha hdecode
  obtain ⟨-, -, -, hresponses, -, -, hmem⟩ := accept_keeps ha
  exact ⟨step_of_decode_ok hreset ha hdecode, accept_blockState ha, hresponses, hmem⟩

/-- Settles O36. -/
theorem tableReadNeedsPublishedTables : Obligations.TableReadNeedsPublishedTables := by
  unfold Obligations.TableReadNeedsPublishedTables
  intro T t i
  constructor
  case left =>
    intro hinvalid
    simp [TableSet.read, hinvalid]
  case right =>
    intro v
    rw [read_eq_ok_iff, Memory.read, Option.bind_eq_some_iff]

end Sys2Proof.Machine

/-!
The decoder, part by part (30_encoding.md rules R51 to R55): what each field and each body says when it is read, and the
frame it was read from. Fields first, then the opcode byte, then the bodies.
-/

namespace Sys2Proof.Machine

/-! ## Fields -/

/-- The parts of a decoder that accepts: its first field is read, and the rest accepts what was read. -/
theorem decoder_bind_eq_ok_iff {α β : Type} {x : Except DecodeError α} {f : α → Except DecodeError β} {b : β} :
    x >>= f = .ok b ↔ ∃ a, x = .ok a ∧ f a = .ok b := by
  cases x with
  | error e => exact ⟨nofun, fun ⟨_, hx, _⟩ => nomatch hx⟩
  | ok a => exact ⟨fun h => ⟨a, rfl, h⟩, fun ⟨_, hx, h⟩ => by cases hx; exact h⟩

/-- The number of a big-endian 16-bit field. -/
theorem toNat_join16 (b1 b0 : Byte) : (join16 b1 b0).toNat = 256 * b1.toNat + b0.toNat := by
  rw [join16, BitVec.toNat_append, ← Nat.shiftLeft_add_eq_or_of_lt b0.isLt, Nat.shiftLeft_eq, Nat.mul_comm]

/-- R53: a one above the `k` bits of the value is a must-be-zero bit. -/
theorem narrow_of_le {k w : Nat} {v : BitVec w} (h : 2 ^ k ≤ v.toNat) : narrow k v = .error .mustBeZero := by
  have hne : v >>> k ≠ 0#w := by
    intro h0
    have hdiv : v.toNat / 2 ^ k = 0 := by simpa [Nat.shiftRight_eq_div_pow] using congrArg BitVec.toNat h0
    exact absurd hdiv (Nat.div_pos h (Nat.two_pow_pos k)).ne'
  rw [narrow, if_neg hne]

/-- A narrow field is refused for nothing but its must-be-zero bits, so a decoder that reads one refuses for them as
soon as either the field or all that follows does. -/
theorem narrow_bind_eq_mustBeZero {α : Type} {k w : Nat} {v : BitVec w} {f : BitVec k → Except DecodeError α}
    (h : 2 ^ k ≤ v.toNat ∨ ∀ u, f u = .error .mustBeZero) : narrow k v >>= f = .error .mustBeZero := by
  rcases h with hv | hf
  · rw [narrow_of_le hv]; rfl
  · unfold narrow
    split
    · exact hf _
    · rfl

theorem decodeCtx_of_exists {lim : Config.Limits} {ctx : Byte} (h : contextExists lim ctx = true) :
    decodeCtx lim ctx = .ok ctx := by
  rw [decodeCtx, if_pos h]

theorem decodeCtx_ok {lim : Config.Limits} {ctx c : Byte} (h : decodeCtx lim ctx = .ok c) :
    c = ctx ∧ contextExists lim ctx = true := by
  unfold decodeCtx at h
  split at h
  next hexists => cases h; exact ⟨rfl, hexists⟩
  next => cases h

/-- The length field of R51 holds the length of every sequence it can be written for. -/
theorem decodeBytes_lengthPrefixed {lim : Config.Limits} {bs : List Byte} (hfit : bytesFit lim bs = true)
    (hlen : bs.length < 2 ^ 32) : decodeBytes lim (lengthPrefixed bs) = .ok bs := by
  have hle : bs.length ≤ lim.maxBuf := of_decide_eq_true hfit
  have hfield : (BitVec.ofNat 32 bs.length).toNat = bs.length := Nat.mod_eq_of_lt hlen
  simp [decodeBytes, lengthPrefixed, bytes32, join32_bytes32, hfield, hle]

theorem decodeBytes_ok {lim : Config.Limits} {f bs : List Byte} (h : decodeBytes lim f = .ok bs) :
    bytesFit lim bs = true ∧ lengthPrefixed bs = f := by
  unfold decodeBytes at h
  split at h
  next n3 n2 n1 n0 data =>
    split at h
    next => cases h
    next hmax =>
      split at h
      next hlen =>
        cases h
        refine ⟨decide_eq_true (by omega), ?_⟩
        rw [lengthPrefixed, hlen, BitVec.ofNat_toNat, BitVec.setWidth_eq, bytes32_join32]
        rfl
      next => cases h
  next => cases h

/-! ## The opcode byte -/

section
variable (lim : Config.Limits) (body : List Byte)

theorem decode_gfmul : decode lim (0x01 :: body) = decodeGfmul body := rfl
theorem decode_gfexp7 : decode lim (0x02 :: body) = decodeGfexp7 body := rfl
theorem decode_perm32 : decode lim (0x03 :: body) = decodePerm32 body := rfl
theorem decode_sbinit : decode lim (0x04 :: body) = decodeSbinit body := rfl
theorem decode_sbrd : decode lim (0x05 :: body) = decodeSbrd body := rfl
theorem decode_keyset : decode lim (0x06 :: body) = decodeKeyset lim body := rfl
theorem decode_roundf : decode lim (0x07 :: body) = decodeRoundf body := rfl
theorem decode_enc : decode lim (0x08 :: body) = decodeBuffer lim .enc body := rfl
theorem decode_dec : decode lim (0x09 :: body) = decodeBuffer lim .dec body := rfl
theorem decode_decrng : decode lim (0x0A :: body) = decodeDecrng lim body := rfl
theorem decode_decall : decode lim (0x0B :: body) = decodeBuffer lim .decall body := rfl
theorem decode_stat : decode lim (0x0C :: body) = decodeStat lim body := rfl

end

/-- R53: the frame of a command begins with its opcode. -/
theorem encode_eq_opcode_cons (i : Instr) : ∃ body, encode i = opcode i :: body := by
  cases i with
  | gfmul a b m => exact Laws.OpcodeFirst.gfmul a b m
  | gfexp7 b m => exact Laws.OpcodeFirst.gfexp7 b m
  | perm32 x => exact Laws.OpcodeFirst.perm32 x
  | sbinit => exact Laws.OpcodeFirst.sbinit
  | sbrd t n => exact Laws.OpcodeFirst.sbrd t n
  | keyset ctx level key => exact Laws.OpcodeFirst.keyset ctx level key
  | roundf p sk0 sk1 sk2 => exact Laws.OpcodeFirst.roundf p sk0 sk1 sk2
  | enc ctx data => exact Laws.OpcodeFirst.enc ctx data
  | dec ctx data => exact Laws.OpcodeFirst.dec ctx data
  | decrng ctx start stop buf => exact Laws.OpcodeFirst.decrng ctx start stop buf
  | decall ctx buf => exact Laws.OpcodeFirst.decall ctx buf
  | stat ctx => exact Laws.OpcodeFirst.stat ctx

/-- R54: the commands have the opcodes 0x01 to 0x0C. -/
theorem opcode_range (i : Instr) : 1 ≤ (opcode i).toNat ∧ (opcode i).toNat ≤ 12 := by
  cases i <;> simp [opcode]

/-! ## Bodies that are read back -/

/-- The four words of ROUNDF's body, of which three are narrow fields. -/
theorem decodeRoundf_bytes32 (p k0 k1 k2 : Word) :
    decodeRoundf (bytes32 p ++ bytes32 k0 ++ bytes32 k1 ++ bytes32 k2) = (do
      let sk0 ← narrow 20 k0
      let sk1 ← narrow 20 k1
      let sk2 ← narrow 20 k2
      return .roundf p sk0 sk1 sk2) := by
  simp [decodeRoundf, bytes32, join32_bytes32]

/-- Format `B` (R52), whichever command it makes. -/
theorem decodeBuffer_cons {lim : Config.Limits} {ctx : Byte} {data : List Byte} (make : Byte → List Byte → Instr)
    (hwf : (contextExists lim ctx && bytesFit lim data) = true) (hlen : data.length < 2 ^ 32) :
    decodeBuffer lim make (ctx :: lengthPrefixed data) = .ok (make ctx data) := by
  obtain ⟨hctx, hfit⟩ := Bool.and_eq_true_iff.1 hwf
  rw [decodeBuffer, decodeCtx_of_exists hctx, decodeBytes_lengthPrefixed hfit hlen]
  rfl

/-- KEYSET reads as format `B` with a word between its two operands. -/
theorem decodeKeyset_bytes32 (lim : Config.Limits) (ctx : Byte) (level : Word) (rest : List Byte) :
    decodeKeyset lim (ctx :: (bytes32 level ++ rest)) = decodeBuffer lim (.keyset · level ·) (ctx :: rest) := by
  simp [decodeKeyset, decodeBuffer, bytes32, join32_bytes32]

/-- DECRNG reads as format `B` with two words between its two operands. -/
theorem decodeDecrng_bytes32 (lim : Config.Limits) (ctx : Byte) (start stop : Word) (rest : List Byte) :
    decodeDecrng lim (ctx :: (bytes32 start ++ bytes32 stop ++ rest)) =
      decodeBuffer lim (.decrng · start stop ·) (ctx :: rest) := by
  simp [decodeDecrng, decodeBuffer, bytes32, join32_bytes32]

/-- A well-formed command has no byte sequence above `MAXBUF`. -/
theorem operandLength_le {lim : Config.Limits} {i : Instr} (h : i.wellFormed lim = true) :
    Laws.operandLength i ≤ lim.maxBuf := by
  have hfit {ctx : Byte} {bs : List Byte} (hwf : (contextExists lim ctx && bytesFit lim bs) = true) :
      bs.length ≤ lim.maxBuf := of_decide_eq_true (Bool.and_eq_true_iff.1 hwf).2
  cases i with
  | keyset ctx level key => exact hfit h
  | enc ctx data => exact hfit h
  | dec ctx data => exact hfit h
  | decrng ctx start stop buf => exact hfit h
  | decall ctx buf => exact hfit h
  | _ => exact Nat.zero_le _

/-- The decoder reads every well-formed command back from its frame, provided a `u32` can hold the length. -/
theorem decode_encode {lim : Config.Limits} {i : Instr} (hwf : i.wellFormed lim = true)
    (hlen : Laws.operandLength i < 2 ^ 32) : decode lim (encode i) = .ok i := by
  cases i with
  | gfmul a b m =>
    rw [encode, bytes16]
    simp only [List.cons_append, List.nil_append, decode_gfmul, decodeGfmul]
    rw [join16_bytes16, narrow_setWidth (by decide)]
    rfl
  | gfexp7 b m =>
    rw [encode, bytes16]
    simp only [List.cons_append, List.nil_append, decode_gfexp7, decodeGfexp7]
    rw [join16_bytes16, narrow_setWidth (by decide)]
    rfl
  | perm32 x =>
    rw [encode, decode_perm32, bytes32, decodePerm32, join32_bytes32]
  | sbinit => rw [encode, decode_sbinit, decodeSbinit]
  | sbrd t n =>
    rw [encode, bytes16]
    simp only [List.cons_append, List.nil_append, decode_sbrd, decodeSbrd]
    rw [join16_bytes16, narrow_setWidth (by decide), narrow_setWidth (by decide)]
    rfl
  | roundf p sk0 sk1 sk2 =>
    rw [encode, decode_roundf, decodeRoundf_bytes32, narrow_setWidth (by decide), narrow_setWidth (by decide),
      narrow_setWidth (by decide)]
    rfl
  | keyset ctx level key =>
    calc
      decode lim (encode (.keyset ctx level key)) =
          decodeKeyset lim (ctx :: (bytes32 level ++ lengthPrefixed key)) := decode_keyset ..
      _ = decodeBuffer lim (.keyset · level ·) (ctx :: lengthPrefixed key) := decodeKeyset_bytes32 ..
      _ = .ok (.keyset ctx level key) := decodeBuffer_cons _ hwf hlen
  | enc ctx data => exact (decode_enc ..).trans (decodeBuffer_cons .enc hwf hlen)
  | dec ctx data => exact (decode_dec ..).trans (decodeBuffer_cons .dec hwf hlen)
  | decrng ctx start stop buf =>
    calc
      decode lim (encode (.decrng ctx start stop buf)) =
          decodeDecrng lim (ctx :: (bytes32 start ++ bytes32 stop ++ lengthPrefixed buf)) := decode_decrng ..
      _ = decodeBuffer lim (.decrng · start stop ·) (ctx :: lengthPrefixed buf) := decodeDecrng_bytes32 ..
      _ = .ok (.decrng ctx start stop buf) := decodeBuffer_cons _ hwf hlen
  | decall ctx buf => exact (decode_decall ..).trans (decodeBuffer_cons .decall hwf hlen)
  | stat ctx =>
    rw [encode, decode_stat, decodeStat, decodeCtx_of_exists hwf]
    rfl

/-! ## The frame behind a body that is accepted -/

section
variable {lim : Config.Limits} {body : List Byte} {i : Instr}

/-- Format `B` (R52), whichever command it makes. -/
theorem decodeBuffer_ok {make : Byte → List Byte → Instr} (h : decodeBuffer lim make body = .ok i) :
    ∃ ctx data, i = make ctx data ∧ (contextExists lim ctx && bytesFit lim data) = true ∧
      body = ctx :: lengthPrefixed data := by
  unfold decodeBuffer at h
  split at h
  next ctx rest =>
    obtain ⟨c, hc, h⟩ := decoder_bind_eq_ok_iff.1 h
    obtain ⟨data, hdata, h⟩ := decoder_bind_eq_ok_iff.1 h
    cases h
    obtain ⟨rfl, hctx⟩ := decodeCtx_ok hc
    obtain ⟨hfit, rfl⟩ := decodeBytes_ok hdata
    exact ⟨c, data, rfl, Bool.and_eq_true_iff.2 ⟨hctx, hfit⟩, rfl⟩
  next => cases h

theorem decodeGfmul_ok (h : decodeGfmul body = .ok i) : i.wellFormed lim = true ∧ encode i = 0x01 :: body := by
  unfold decodeGfmul at h
  split at h
  next a b m1 m0 =>
    obtain ⟨m, hm, h⟩ := decoder_bind_eq_ok_iff.1 h
    cases h
    rw [encode, setWidth_of_narrow hm, bytes16_join16]
    exact ⟨rfl, rfl⟩
  next => cases h

theorem decodeGfexp7_ok (h : decodeGfexp7 body = .ok i) : i.wellFormed lim = true ∧ encode i = 0x02 :: body := by
  unfold decodeGfexp7 at h
  split at h
  next b m1 m0 =>
    obtain ⟨m, hm, h⟩ := decoder_bind_eq_ok_iff.1 h
    cases h
    rw [encode, setWidth_of_narrow hm, bytes16_join16]
    exact ⟨rfl, rfl⟩
  next => cases h

theorem decodePerm32_ok (h : decodePerm32 body = .ok i) : i.wellFormed lim = true ∧ encode i = 0x03 :: body := by
  unfold decodePerm32 at h
  split at h
  next x3 x2 x1 x0 =>
    cases h
    rw [encode, bytes32_join32]
    exact ⟨rfl, rfl⟩
  next => cases h

theorem decodeSbinit_ok (h : decodeSbinit body = .ok i) : i.wellFormed lim = true ∧ encode i = 0x04 :: body := by
  unfold decodeSbinit at h
  split at h
  next => cases h; exact ⟨rfl, rfl⟩
  next => cases h

theorem decodeSbrd_ok (h : decodeSbrd body = .ok i) : i.wellFormed lim = true ∧ encode i = 0x05 :: body := by
  unfold decodeSbrd at h
  split at h
  next tByte i1 i0 =>
    obtain ⟨t, ht, h⟩ := decoder_bind_eq_ok_iff.1 h
    obtain ⟨n, hn, h⟩ := decoder_bind_eq_ok_iff.1 h
    cases h
    rw [encode, setWidth_of_narrow ht, setWidth_of_narrow hn, bytes16_join16]
    exact ⟨rfl, rfl⟩
  next => cases h

theorem decodeKeyset_ok (h : decodeKeyset lim body = .ok i) : i.wellFormed lim = true ∧ encode i = 0x06 :: body := by
  unfold decodeKeyset at h
  split at h
  next ctx l3 l2 l1 l0 rest =>
    obtain ⟨c, key, rfl, hwf, hbody⟩ :=
      decodeBuffer_ok (make := (.keyset · (join32 l3 l2 l1 l0) ·)) (body := ctx :: rest) h
    obtain ⟨rfl, rfl⟩ := List.cons.inj hbody
    rw [encode, bytes32_join32]
    exact ⟨hwf, rfl⟩
  next => cases h

theorem decodeRoundf_ok (h : decodeRoundf body = .ok i) : i.wellFormed lim = true ∧ encode i = 0x07 :: body := by
  unfold decodeRoundf at h
  split at h
  next =>
    obtain ⟨sk0, h0, h⟩ := decoder_bind_eq_ok_iff.1 h
    obtain ⟨sk1, h1, h⟩ := decoder_bind_eq_ok_iff.1 h
    obtain ⟨sk2, h2, h⟩ := decoder_bind_eq_ok_iff.1 h
    cases h
    rw [encode, setWidth_of_narrow h0, setWidth_of_narrow h1, setWidth_of_narrow h2]
    simp only [bytes32_join32]
    exact ⟨rfl, rfl⟩
  next => cases h

theorem decodeDecrng_ok (h : decodeDecrng lim body = .ok i) : i.wellFormed lim = true ∧ encode i = 0x0A :: body := by
  unfold decodeDecrng at h
  split at h
  next ctx f3 f2 f1 f0 t3 t2 t1 t0 rest =>
    obtain ⟨c, buf, rfl, hwf, hbody⟩ :=
      decodeBuffer_ok (make := (.decrng · (join32 f3 f2 f1 f0) (join32 t3 t2 t1 t0) ·)) (body := ctx :: rest) h
    obtain ⟨rfl, rfl⟩ := List.cons.inj hbody
    rw [encode, bytes32_join32, bytes32_join32]
    exact ⟨hwf, rfl⟩
  next => cases h

theorem decodeStat_ok (h : decodeStat lim body = .ok i) : i.wellFormed lim = true ∧ encode i = 0x0C :: body := by
  unfold decodeStat at h
  split at h
  next ctx =>
    obtain ⟨c, hc, h⟩ := decoder_bind_eq_ok_iff.1 h
    cases h
    obtain ⟨rfl, hctx⟩ := decodeCtx_ok hc
    exact ⟨hctx, rfl⟩
  next => cases h

/-- The opcode sends the body to one of the twelve decoders, each of which accepts only what it would write itself. -/
theorem decode_ok {f : List Byte} (h : decode lim f = .ok i) : i.wellFormed lim = true ∧ encode i = f := by
  unfold decode at h
  split at h
  next => cases h
  next op body =>
    have hop {n : Nat} (hn : op.toNat = n) : op = BitVec.ofNat 8 n := by
      rw [← hn, BitVec.ofNat_toNat, BitVec.setWidth_eq]
    split at h
    next hn => rw [hop hn]; exact decodeGfmul_ok h
    next hn => rw [hop hn]; exact decodeGfexp7_ok h
    next hn => rw [hop hn]; exact decodePerm32_ok h
    next hn => rw [hop hn]; exact decodeSbinit_ok h
    next hn => rw [hop hn]; exact decodeSbrd_ok h
    next hn => rw [hop hn]; exact decodeKeyset_ok h
    next hn => rw [hop hn]; exact decodeRoundf_ok h
    next hn => obtain ⟨ctx, data, rfl, hwf, rfl⟩ := decodeBuffer_ok h; rw [hop hn]; exact ⟨hwf, rfl⟩
    next hn => obtain ⟨ctx, data, rfl, hwf, rfl⟩ := decodeBuffer_ok h; rw [hop hn]; exact ⟨hwf, rfl⟩
    next hn => rw [hop hn]; exact decodeDecrng_ok h
    next hn => obtain ⟨ctx, data, rfl, hwf, rfl⟩ := decodeBuffer_ok h; rw [hop hn]; exact ⟨hwf, rfl⟩
    next hn => rw [hop hn]; exact decodeStat_ok h
    next => cases h

end

/-- R54: the opcode byte of an accepted frame is the command's own. -/
theorem opcode_of_decode_ok {lim : Config.Limits} {op : Byte} {body : List Byte} {i : Instr}
    (h : decode lim (op :: body) = .ok i) : op = opcode i := by
  obtain ⟨-, hframe⟩ := decode_ok h
  obtain ⟨rest, hrest⟩ := encode_eq_opcode_cons i
  rw [hframe] at hrest
  exact (List.cons.inj hrest).1

/-- A frame of no command gets the error response, and the step does nothing else (R55, R156). -/
theorem step_of_decode_ne_ok {s s1 : State} {f : List Byte} (hreset : s.resetAsked = false)
    (ha : s.accept = some (f, s1)) (hmalformed : ∀ i, decode s.limits f ≠ .ok i) :
    step s = .next (s1.answer [0x05]) ∧ s1.blockState = s.blockState := by
  refine ⟨?_, accept_blockState ha⟩
  cases hdecode : decode s.limits f with
  | ok i => exact absurd hdecode (hmalformed i)
  | error e => simp [step, hreset, ha, accept_limits ha, hdecode, errorBytes, Error.code]

end Sys2Proof.Machine

/-!
Obligations on frames and on the answer to a command (30_encoding.md rules R51 to R56; 60_exceptions.md rules R150,
R156): O1 to O6, O9.
-/

namespace Sys2Proof.Machine

/-! ## One answer -/

/-- No error has a code above 6 (R150). -/
theorem code_le_six (e : Error) : e.code.toNat ≤ 6 := by cases e <;> decide

/-- R56: a response begins with a status of R150, and only `OK` has fields behind it. -/
def WellFormedResponse (bs : List Byte) : Prop :=
  ∃ status rest, bs = status :: rest ∧ status.toNat ≤ 6 ∧ (status ≠ 0 → rest = [])

theorem wellFormedResponse_error (e : Error) : WellFormedResponse [e.code] :=
  ⟨e.code, [], rfl, code_le_six e, fun _ => rfl⟩

theorem wellFormedResponse_ok (rest : List Byte) : WellFormedResponse (0x00 :: rest) :=
  ⟨0x00, rest, rfl, by decide, fun h => absurd rfl h⟩

/-- A command that ends gives one response, to the requester being served, and takes none of the pending ones. -/
theorem exec_answers_once {i : Instr} {s t : State} (h : exec i s = .next t) :
    t.pending = s.pending ∧ ∃ bs, WellFormedResponse bs ∧
      t.responses = s.responses ++ [{ requester := s.serving, bytes := bs }] := by
  rcases exec_next h with ⟨e, rfl⟩ | ⟨rest, rfl, -⟩ | ⟨rest, rfl, -⟩ | ⟨ctx, level, key, -, -, -, -, -, rfl⟩
  · exact ⟨rfl, _, wellFormedResponse_error e, rfl⟩
  · exact ⟨rfl, _, wellFormedResponse_ok rest, rfl⟩
  · exact ⟨rfl, _, wellFormedResponse_ok rest, rfl⟩
  · exact ⟨rfl, _, wellFormedResponse_ok [], rfl⟩

/-- The same of a whole step, which takes from the pending ones the command it accepts. -/
theorem step_answers_once {s t : State} (hreset : s.resetAsked = false) (hpending : s.pending ≠ [])
    (h : step s = .next t) :
    ∃ f s1 bs, s.accept = some (f, s1) ∧ t.pending = s1.pending ∧ WellFormedResponse bs ∧
      t.responses = s.responses ++ [{ requester := s1.serving, bytes := bs }] := by
  rcases step_next h with ⟨hasked, -⟩ | ⟨-, hidle, -⟩ | ⟨f, s1, -, ha, hrun⟩
  · rw [hreset] at hasked; cases hasked
  · exact absurd hidle hpending
  · obtain ⟨-, -, -, hresponses, -⟩ := accept_keeps ha
    rw [← hresponses]
    rcases hrun with ⟨i, -, he⟩ | ⟨e, -, rfl⟩
    · obtain ⟨hp, bs, hbs, hr⟩ := exec_answers_once he
      exact ⟨f, s1, bs, ha, hp, hbs, hr⟩
    · exact ⟨f, s1, [0x05], ha, rfl, wellFormedResponse_error .illegalCommand, rfl⟩

/-! ## The obligations -/

/-- Settles O1: a legal `MAXBUF` is below what the length field can hold. -/
theorem decodeOfEncodeIsTheCommand : Obligations.DecodeOfEncodeIsTheCommand := by
  unfold Obligations.DecodeOfEncodeIsTheCommand
  intro lim i hmax hwf
  have hlen := operandLength_le hwf
  exact decode_encode hwf (by omega)

/-- Settles O2, decoder by decoder. -/
theorem decodedFrameIsItsEncoding : Obligations.DecodedFrameIsItsEncoding := by
  unfold Obligations.DecodedFrameIsItsEncoding
  exact fun _ _ _ => decode_ok

/-- Settles O3: a reserved byte is the opcode of no command, so no frame that starts with one is accepted. -/
theorem opcodeSelectsTheCommand : Obligations.OpcodeSelectsTheCommand := by
  unfold Obligations.OpcodeSelectsTheCommand
  intro op body
  refine ⟨fun lim i => opcode_of_decode_ok, fun hreserved s s1 hreset ha => ?_⟩
  refine step_of_decode_ne_ok hreset ha fun i hdecode => ?_
  obtain ⟨hlow, hhigh⟩ := opcode_range i
  rw [← opcode_of_decode_ok hdecode] at hlow hhigh
  rcases hreserved with rfl | hop
  · exact absurd hlow (by decide)
  · omega

/-- Settles O4: a frame that decodes would be the frame of a well-formed command. -/
theorem malformedFrameChangesNothing : Obligations.MalformedFrameChangesNothing := by
  unfold Obligations.MalformedFrameChangesNothing
  intro s s1 f _ hreset ha hnoCommand
  refine step_of_decode_ne_ok hreset ha fun i hdecode => ?_
  obtain ⟨hwf, hframe⟩ := decode_ok hdecode
  exact hnoCommand i hwf hframe

/-- Settles O5: the field with the bit refuses, and the fields before it refuse for nothing else. -/
theorem mustBeZeroBitsAreChecked : Obligations.MustBeZeroBitsAreChecked := by
  unfold Obligations.MustBeZeroBitsAreChecked
  intro lim
  have hhigh {k : Nat} {b1 b0 : Byte} (h : 2 ^ k ≤ 256 * b1.toNat) : 2 ^ k ≤ (join16 b1 b0).toNat := by
    rw [toNat_join16]; omega
  refine ⟨fun a b m1 m0 hm => ?gfmul, fun b m1 m0 hm => ?gfexp7, fun t i1 i0 h => ?sbrd, fun p k0 k1 k2 h => ?roundf⟩
  case gfmul =>
    rw [decode_gfmul, decodeGfmul]
    exact narrow_bind_eq_mustBeZero (.inl (hhigh (by omega)))
  case gfexp7 =>
    rw [decode_gfexp7, decodeGfexp7]
    exact narrow_bind_eq_mustBeZero (.inl (hhigh (by omega)))
  case sbrd =>
    rw [decode_sbrd, decodeSbrd]
    exact narrow_bind_eq_mustBeZero <| h.imp id fun hi _ => narrow_bind_eq_mustBeZero (.inl (hhigh (by omega)))
  case roundf =>
    rw [decode_roundf, decodeRoundf_bytes32]
    exact narrow_bind_eq_mustBeZero <| h.imp id fun h _ => narrow_bind_eq_mustBeZero <| h.imp id fun h _ =>
      narrow_bind_eq_mustBeZero (.inl h)

/-- Settles O9: in a state of the invariant the step ends, and the one response is the accepted command's. -/
theorem everyCommandIsAnsweredOnce : Obligations.EveryCommandIsAnsweredOnce := by
  unfold Obligations.EveryCommandIsAnsweredOnce
  intro s hinv hreset hpending
  obtain ⟨t, hstep⟩ := noStepStops s hinv
  obtain ⟨f, s1, bs, ha, htaken, ⟨status, rest, rfl, hcode, halone⟩, hresponses⟩ :=
    step_answers_once hreset hpending hstep
  obtain ⟨before, after, hbefore, hafter, -⟩ := accept_pending ha
  exact ⟨s1, t, { requester := s1.serving, frame := f }, before, after, status, rest, ha, rfl, hbefore, hstep,
    htaken.trans hafter, hresponses, hcode, halone⟩

/-- Settles O6: four closed frames, which the decoder reads as it stands. -/
theorem sampleFramesDecode : Obligations.SampleFramesDecode := by
  unfold Obligations.SampleFramesDecode
  decide

end Sys2Proof.Machine

/-!
The multiplier's loop (40_field_arithmetic.md rule R70): its one step, its end, and the rule for what holds when it
ends: O28.
-/

namespace Sys2Proof.Machine

/-! ## One iteration -/

/-- What an iteration does to `a`: one shift, and the XOR with the modulus when bit 8 or a higher one is set (R70). -/
def gfShift (m a : Nat) : Nat := if 256 ≤ a <<< 1 then a <<< 1 ^^^ m else a <<< 1

theorem gfIteration_eq (m acc a b : Nat) :
    gfIteration m (acc, a, b) = (if b.testBit 0 then acc ^^^ a else acc, gfShift m a, b >>> 1) := rfl

/-- The XOR into the accumulator lengthens neither operand. -/
theorem gfAccumulate_lt_two_pow {acc a b w : Nat} (hacc : acc < 2 ^ w) (ha : a < 2 ^ w) :
    (if b.testBit 0 then acc ^^^ a else acc) < 2 ^ w := by
  split
  · exact Nat.xor_lt_two_pow hacc ha
  · exact hacc

@[simp] theorem gfLoop_of_eq_zero (m fuel acc a : Nat) : gfLoop m fuel acc a 0 = acc := by
  cases fuel <;> simp [gfLoop]

theorem gfLoop_succ {m fuel acc a b : Nat} (hb : b ≠ 0) :
    gfLoop m (fuel + 1) acc a b =
      gfLoop m fuel (gfIteration m (acc, a, b)).1 (gfIteration m (acc, a, b)).2.1 (gfIteration m (acc, a, b)).2.2 := by
  simp [gfLoop, hb, gfIteration]

theorem shiftRight_one_lt {b k : Nat} (h : b < 2 ^ (k + 1)) : b >>> 1 < 2 ^ k := by
  rw [Nat.shiftRight_one]
  omega

/-! ## The whole loop -/

/-- `n` iterations from `st` are those of the `while` loop: it goes on before each, and ends after the last. -/
def LoopRuns (m n : Nat) (st : Nat × Nat × Nat) : Prop :=
  (∀ k, k < n → ((gfIteration m)^[k] st).2.2 ≠ 0) ∧ ((gfIteration m)^[n] st).2.2 = 0

theorem LoopRuns.succ {m n : Nat} {st : Nat × Nat × Nat} (hb : st.2.2 ≠ 0) (h : LoopRuns m n (gfIteration m st)) :
    LoopRuns m (n + 1) st := by
  obtain ⟨hgoes, hends⟩ := h
  refine ⟨fun k hk => ?_, hends⟩
  cases k with
  | zero => exact hb
  | succ k => exact hgoes k (by omega)

/-- R71 (a): fuel for as many iterations as `b` has bits runs the loop to its end. -/
theorem gfLoop_eq_iterate {m fuel acc a b : Nat} (h : b < 2 ^ fuel) :
    ∃ n, LoopRuns m n (acc, a, b) ∧ ((gfIteration m)^[n] (acc, a, b)).1 = gfLoop m fuel acc a b := by
  induction fuel generalizing acc a b with
  | zero =>
    obtain rfl : b = 0 := by omega
    exact ⟨0, ⟨nofun, rfl⟩, rfl⟩
  | succ fuel ih =>
    by_cases hb : b = 0
    · subst hb
      exact ⟨0, ⟨nofun, rfl⟩, (gfLoop_of_eq_zero ..).symm⟩
    · obtain ⟨n, hruns, hacc⟩ := ih (acc := (gfIteration m (acc, a, b)).1)
        (a := (gfIteration m (acc, a, b)).2.1) (shiftRight_one_lt h)
      exact ⟨n + 1, hruns.succ hb, by rw [gfLoop_succ hb]; exact hacc⟩

theorem gfMult_eq_iterate (a b m : Nat) :
    ∃ n, LoopRuns m n (0, a, b) ∧ ((gfIteration m)^[n] (0, a, b)).1 = gfMult a b m :=
  gfLoop_eq_iterate Nat.lt_log2_self

/-- A predicate on `(acc, a, b)` that every iteration of a running loop keeps holds where the loop ends. -/
theorem LoopRuns.invariant {m n : Nat} {st : Nat × Nat × Nat} {P : Nat × Nat × Nat → Prop} (h : LoopRuns m n st)
    (hstep : ∀ st, st.2.2 ≠ 0 → P st → P (gfIteration m st)) (hstart : P st) : P ((gfIteration m)^[n] st) := by
  obtain ⟨hgoes, -⟩ := h
  have hall : ∀ k ≤ n, P ((gfIteration m)^[k] st) := by
    intro k
    induction k with
    | zero => exact fun _ => hstart
    | succ k ih =>
      intro hk
      rw [Function.iterate_succ_apply']
      exact hstep _ (hgoes k hk) (ih (by omega))
  exact hall n le_rfl

/-- The rule of the multiplier's loop: what every iteration keeps holds of its value, with nothing left of `b`. -/
theorem gfMult_invariant {m a b : Nat} {P : Nat × Nat × Nat → Prop}
    (hstep : ∀ acc a b, b ≠ 0 → P (acc, a, b) → P (gfIteration m (acc, a, b))) (hstart : P (0, a, b)) :
    ∃ a', P (gfMult a b m, a', 0) := by
  obtain ⟨n, hruns, hacc⟩ := gfMult_eq_iterate a b m
  have hend := hruns.invariant (fun st => hstep st.1 st.2.1 st.2.2) hstart
  obtain ⟨-, hb⟩ := hruns
  generalize (gfIteration m)^[n] (0, a, b) = st at hacc hb hend
  obtain ⟨_, a', _⟩ := st
  subst hacc hb
  exact ⟨a', hend⟩

/-- Settles O28. -/
theorem gfMultIsTheLoopOfItsRule : Obligations.GfMultIsTheLoopOfItsRule := by
  unfold Obligations.GfMultIsTheLoopOfItsRule
  intro a b m
  obtain ⟨n, ⟨hgoes, hends⟩, hacc⟩ := gfMult_eq_iterate a b m
  exact ⟨n, hgoes, hends, hacc⟩

end Sys2Proof.Machine

/-!
How long the values of the two units can get (40_field_arithmetic.md rules R71 e, R74 e), and the two commands (R72,
R75): O27, O30.
-/

namespace Sys2Proof.Machine

/-! ## Bounds -/

/-- With a modulus of at most 9 bits a shift lengthens `a` by one bit at most. -/
theorem gfShift_lt_two_pow {m a k : Nat} (hm : m < 512) (hk : 8 ≤ k) (ha : a < 2 ^ k) : gfShift m a < 2 ^ (k + 1) := by
  have h2 : a <<< 1 < 2 ^ (k + 1) := by rw [Nat.shiftLeft_eq]; omega
  have hm' : m < 2 ^ (k + 1) := hm.trans_le (Nat.pow_le_pow_right (n := 2) (i := 9) (by omega) (by omega))
  unfold gfShift
  split
  · exact Nat.xor_lt_two_pow h2 hm'
  · exact h2

/-- `a` has `k` bits at most and `b` has `j` left, which together lengthen the accumulator to `w` bits at most. -/
def LoopFits (w : Nat) (st : Nat × Nat × Nat) : Prop :=
  ∃ k j, 8 ≤ k ∧ k + j = w + 1 ∧ st.1 < 2 ^ w ∧ st.2.1 < 2 ^ k ∧ st.2.2 < 2 ^ j

theorem LoopFits.step {m w acc a b : Nat} (hm : m < 512) (hb : b ≠ 0) (h : LoopFits w (acc, a, b)) :
    LoopFits w (gfIteration m (acc, a, b)) := by
  obtain ⟨k, j, hk, hw, hacc, ha, hbits⟩ := h
  dsimp only at hacc ha hbits
  cases j with
  | zero => omega
  | succ j =>
    have haw : a < 2 ^ w := ha.trans_le (Nat.pow_le_pow_right (by omega) (by omega))
    rw [gfIteration_eq]
    exact ⟨k + 1, j, by omega, by omega, gfAccumulate_lt_two_pow hacc haw, gfShift_lt_two_pow hm hk ha,
      shiftRight_one_lt hbits⟩

/-- R71 (e) for operands of any length: the product has fewer bits than they have together. -/
theorem gfMult_lt_two_pow {a b m k j : Nat} (hm : m < 512) (hk : 8 ≤ k) (ha : a < 2 ^ k) (hb : b < 2 ^ j) :
    gfMult a b m < 2 ^ (k + j - 1) := by
  obtain ⟨a', _, _, _, _, hacc, _, _⟩ := gfMult_invariant (P := LoopFits (k + j - 1))
    (fun _ _ _ => LoopFits.step hm) ⟨k, j, hk, by omega, Nat.two_pow_pos _, ha, hb⟩
  exact hacc

theorem gfMult_lt {a b m : Nat} (ha : a < 256) (hb : b < 256) (hm : m < 512) : gfMult a b m < 2 ^ 15 :=
  gfMult_lt_two_pow (k := 8) (j := 8) hm (by omega) ha hb

theorem gfExp7_of_ne_zero {b m : Nat} (hb : b ≠ 0) :
    gfExp7 b m = gfMult b (gfMult (gfMult b (gfMult b b m) m) (gfMult b (gfMult b b m) m) m) m := by
  rw [gfExp7, if_neg hb]

@[simp] theorem gfExp7_zero (m : Nat) : gfExp7 0 m = 0 := rfl

/-- R74 (e): the four multiplications give at most 15, 22, 43 and 50 bits. -/
theorem gfExp7_lt {b m : Nat} (hb : b < 256) (hm : m < 512) : gfExp7 b m < 2 ^ 50 := by
  by_cases h0 : b = 0
  · simp [h0]
  · rw [gfExp7_of_ne_zero h0]
    have hsquare := gfMult_lt hb hb hm
    have hcube := gfMult_lt_two_pow (k := 8) (j := 15) hm (by omega) hb hsquare
    have hsixth := gfMult_lt_two_pow (k := 22) (j := 22) hm (by omega) hcube hcube
    exact gfMult_lt_two_pow (k := 8) (j := 43) hm (by omega) hb hsixth

/-! ## The commands -/

/-- GFMUL completes in every state with its value alone (R72). -/
theorem exec_gfmul (a b : Byte) (m : BitVec 9) (s : State) :
    exec (.gfmul a b m) s =
      .next (s.answer (0x00 :: bytes64 (BitVec.ofNat 64 (gfMult a.toNat b.toNat m.toNat)))) := rfl

/-- GFEXP7 completes in every state with its value alone (R75). -/
theorem exec_gfexp7 (b : Byte) (m : BitVec 9) (s : State) :
    exec (.gfexp7 b m) s = .next (s.answer (0x00 :: bytes64 (BitVec.ofNat 64 (gfExp7 b.toNat m.toNat)))) := rfl

/-- Settles O27. -/
theorem gfmulCompletes : Obligations.GfmulCompletes := by
  unfold Obligations.GfmulCompletes
  intro a b m s
  have hlt : gfMult a.toNat b.toNat m.toNat < 2 ^ 15 := gfMult_lt a.isLt b.isLt m.isLt
  have hvalue : (BitVec.ofNat 64 (gfMult a.toNat b.toNat m.toNat)).toNat = gfMult a.toNat b.toNat m.toNat :=
    Nat.mod_eq_of_lt (hlt.trans (by decide))
  exact ⟨_, hvalue, hvalue.trans_lt hlt, exec_gfmul a b m s⟩

/-- Settles O30. -/
theorem gfexp7Completes : Obligations.Gfexp7Completes := by
  unfold Obligations.Gfexp7Completes
  intro b m s
  have hlt : gfExp7 b.toNat m.toNat < 2 ^ 50 := gfExp7_lt b.isLt m.isLt
  have hvalue : (BitVec.ofNat 64 (gfExp7 b.toNat m.toNat)).toNat = gfExp7 b.toNat m.toNat :=
    Nat.mod_eq_of_lt (hlt.trans (by decide))
  exact ⟨_, hvalue, hvalue.trans_lt hlt, by rintro rfl; rfl, exec_gfexp7 b m s⟩

end Sys2Proof.Machine

/-!
The multiplier and the seventh power modulo a polynomial over GF(2) (40_field_arithmetic.md rules R71 d, R74 c): O29,
O31.
-/

namespace Sys2Proof.Machine

open Polynomial

/-! ## Numbers as polynomials -/

theorem testBit_eq_false_of_log2_lt {n k : Nat} (h : n.log2 < k) : n.testBit k = false :=
  Nat.testBit_lt_two_pow (Nat.lt_log2_self.trans_le (Nat.pow_le_pow_right (by omega) h))

@[simp] theorem polyOf_coeff (n k : Nat) : (polyOf n).coeff k = if n.testBit k then 1 else 0 := by
  have hterm (i : Nat) : (if n.testBit i then X ^ i else 0 : (ZMod 2)[X]).coeff k =
      if k = i then (if n.testBit k then 1 else 0) else 0 := by
    by_cases hki : k = i
    · subst hki; split <;> simp
    · split <;> simp [coeff_X_pow, hki]
  simp only [polyOf, finsetSum_coeff, hterm, Finset.sum_ite_eq, Finset.mem_range]
  by_cases hk : k < n.log2 + 1
  · simp [hk]
  · simp [hk, testBit_eq_false_of_log2_lt (n := n) (k := k) (by omega)]

@[simp] theorem polyOf_zero : polyOf 0 = 0 := by
  ext k
  simp

/-- XOR is the sum over GF(2). -/
theorem polyOf_xor (a b : Nat) : polyOf (a ^^^ b) = polyOf a + polyOf b := by
  ext k
  rw [coeff_add, polyOf_coeff, polyOf_coeff, polyOf_coeff, Nat.testBit_xor]
  cases a.testBit k <;> cases b.testBit k <;> decide

/-- A shift by one bit is a multiplication by `x`. -/
theorem polyOf_shiftLeft_one (a : Nat) : polyOf (a <<< 1) = X * polyOf a := by
  ext k
  cases k with
  | zero => simp
  | succ k => simp [coeff_X_mul]

/-- The constant coefficient, apart from the others. -/
theorem polyOf_eq_bit_add_shiftRight (b : Nat) :
    polyOf b = (if b.testBit 0 then 1 else 0 : (ZMod 2)[X]) + X * polyOf (b >>> 1) := by
  ext k
  cases k with
  | zero => cases h : b.testBit 0 <;> simp [h]
  | succ k => split <;> simp [coeff_X_mul, coeff_one, Nat.add_comm]

theorem polyOf_eq_zero {n : Nat} (h : polyOf n = 0) : n = 0 := by
  refine Nat.eq_of_testBit_eq fun k => ?_
  have hk : (polyOf n).coeff k = 0 := by rw [h, coeff_zero]
  simpa using hk

theorem polyOf_degree_lt {n k : Nat} (h : n < 2 ^ k) : (polyOf n).degree < k := by
  rw [degree_lt_iff_coeff_zero]
  intro i hi
  simp [Nat.testBit_lt_two_pow (h.trans_le (Nat.pow_le_pow_right (by omega) hi))]

theorem le_degree_polyOf {n k : Nat} (h : n.testBit k = true) : (k : WithBot Nat) ≤ (polyOf n).degree :=
  le_degree_of_ne_zero (by simp [h])

/-! ## Residues -/

/-- The polynomial of a number, modulo the polynomial of `m`. -/
noncomputable def residue (m n : Nat) : AdjoinRoot (polyOf m) := AdjoinRoot.mk (polyOf m) (polyOf n)

@[simp] theorem residue_zero (m : Nat) : residue m 0 = 0 := by simp [residue]

@[simp] theorem residue_modulus (m : Nat) : residue m m = 0 := AdjoinRoot.mk_self

theorem residue_xor (m a b : Nat) : residue m (a ^^^ b) = residue m a + residue m b := by
  simp [residue, polyOf_xor]

theorem residue_shiftLeft_one (m a : Nat) : residue m (a <<< 1) = AdjoinRoot.root (polyOf m) * residue m a := by
  simp [residue, polyOf_shiftLeft_one]

theorem residue_eq_bit_add_shiftRight (m b : Nat) :
    residue m b = (if b.testBit 0 then 1 else 0 : AdjoinRoot (polyOf m)) +
      AdjoinRoot.root (polyOf m) * residue m (b >>> 1) := by
  have hmk := congrArg (AdjoinRoot.mk (polyOf m)) (polyOf_eq_bit_add_shiftRight b)
  rw [map_add, map_mul, apply_ite (AdjoinRoot.mk (polyOf m)), map_one, map_zero] at hmk
  exact hmk

/-- The XOR with the modulus changes no residue, so the loop's shift is a multiplication by `x` for every modulus. -/
theorem residue_gfShift (m a : Nat) : residue m (gfShift m a) = AdjoinRoot.root (polyOf m) * residue m a := by
  unfold gfShift
  split
  · rw [residue_xor, residue_modulus, add_zero, residue_shiftLeft_one]
  · exact residue_shiftLeft_one m a

theorem exists_eq_add_mul_of_mk_eq_residue {p : (ZMod 2)[X]} {m n : Nat}
    (h : AdjoinRoot.mk (polyOf m) p = residue m n) : ∃ q, p = polyOf n + q * polyOf m := by
  obtain ⟨q, hq⟩ := AdjoinRoot.mk_eq_mk.mp h
  exact ⟨q, by rw [mul_comm, ← hq]; ring⟩

/-- Modulo a polynomial of degree 8 a number below 256 is the only one with its residue. -/
theorem eq_of_residue_eq {m a b : Nat} (hm : m.testBit 8 = true) (ha : a < 256) (hb : b < 256)
    (h : residue m a = residue m b) : a = b := by
  have hdvd : polyOf m ∣ polyOf (a ^^^ b) := by
    have hsum : residue m (a ^^^ b) = residue m (b ^^^ b) := by rw [residue_xor, residue_xor, h]
    rw [Nat.xor_self, residue_zero] at hsum
    exact AdjoinRoot.mk_eq_zero.mp hsum
  have hdegree : (polyOf (a ^^^ b)).degree < (polyOf m).degree :=
    (polyOf_degree_lt (Nat.xor_lt_two_pow (n := 8) ha hb)).trans_le (le_degree_polyOf hm)
  exact Nat.xor_eq_zero_iff.mp (polyOf_eq_zero (eq_zero_of_dvd_of_degree_lt hdvd hdegree))

/-! ## The product -/

/-- What is accumulated, and what the rest of the loop will add to it, are `c` together. -/
def LoopSum (m : Nat) (c : AdjoinRoot (polyOf m)) (st : Nat × Nat × Nat) : Prop :=
  residue m st.1 + residue m st.2.1 * residue m st.2.2 = c

theorem LoopSum.step {m acc a b : Nat} {c : AdjoinRoot (polyOf m)} (h : LoopSum m c (acc, a, b)) :
    LoopSum m c (gfIteration m (acc, a, b)) := by
  subst h
  rw [gfIteration_eq, LoopSum, residue_gfShift, residue_eq_bit_add_shiftRight m b]
  dsimp only
  split
  · rw [residue_xor]; ring
  · ring

/-- R71 (d), without its bounds: for every modulus the multiplier multiplies residues. -/
theorem residue_gfMult (a b m : Nat) : residue m (gfMult a b m) = residue m a * residue m b := by
  obtain ⟨a', hsum⟩ := gfMult_invariant (P := LoopSum m (residue m a * residue m b))
    (fun _ _ _ _ => LoopSum.step) (show LoopSum m _ (0, a, b) by simp [LoopSum])
  simpa [LoopSum] using hsum

/-- R74 (c), without its bound. -/
theorem residue_gfExp7 (b m : Nat) : residue m (gfExp7 b m) = residue m b ^ 7 := by
  by_cases hb : b = 0
  · simp [hb]
  · simp only [gfExp7_of_ne_zero hb, residue_gfMult]
    ring

/-! ## A modulus of degree 8 -/

/-- `acc` and `a` are polynomials of degree below 8. -/
def LoopReduced (st : Nat × Nat × Nat) : Prop := st.1 < 256 ∧ st.2.1 < 256

section
variable {m : Nat} (hlow : 256 ≤ m) (hhigh : m < 512)

include hlow hhigh

theorem testBit_eight_of_degree : m.testBit 8 = true := by
  have hquot : m / 2 ^ 8 = 1 := by omega
  rw [Nat.testBit_eq_decide_div_mod_eq, hquot]
  rfl

/-- The XOR with a modulus of degree 8 clears bit 8. -/
theorem gfShift_lt {a : Nat} (ha : a < 256) : gfShift m a < 256 := by
  unfold gfShift
  split
  next h2 =>
    have hshift : a <<< 1 / 2 ^ 8 = 1 := by rw [Nat.shiftLeft_eq] at h2 ⊢; omega
    have hmod : m / 2 ^ 8 = 1 := by omega
    have hquot : (a <<< 1 ^^^ m) / 2 ^ 8 = 0 := by rw [Nat.xor_div_two_pow, hshift, hmod, Nat.xor_self]
    omega
  next h2 => omega

theorem LoopReduced.step {acc a b : Nat} (h : LoopReduced (acc, a, b)) : LoopReduced (gfIteration m (acc, a, b)) := by
  obtain ⟨hacc, ha⟩ := h
  rw [gfIteration_eq]
  exact ⟨gfAccumulate_lt_two_pow (w := 8) hacc ha, gfShift_lt hlow hhigh ha⟩

theorem gfMult_lt_of_degree {a : Nat} (ha : a < 256) (b : Nat) : gfMult a b m < 256 := by
  obtain ⟨a', hacc, -⟩ := gfMult_invariant (b := b) (P := LoopReduced)
    (fun _ _ _ _ => LoopReduced.step hlow hhigh) ⟨by omega, ha⟩
  exact hacc

theorem gfMult_comm {a b : Nat} (ha : a < 256) (hb : b < 256) : gfMult a b m = gfMult b a m :=
  eq_of_residue_eq (testBit_eight_of_degree hlow hhigh) (gfMult_lt_of_degree hlow hhigh ha b)
    (gfMult_lt_of_degree hlow hhigh hb a) (by rw [residue_gfMult, residue_gfMult, mul_comm])

theorem gfExp7_lt_of_degree {b : Nat} (hb : b < 256) : gfExp7 b m < 256 := by
  by_cases h0 : b = 0
  · simp [h0]
  · rw [gfExp7_of_ne_zero h0]
    exact gfMult_lt_of_degree hlow hhigh hb _

end

/-! ## The obligations -/

/-- Settles O29: the residues agree for every modulus; its degree gives the bound, and with it the symmetry. -/
theorem gfMultIsTheFieldProduct : Obligations.GfMultIsTheFieldProduct := by
  unfold Obligations.GfMultIsTheFieldProduct
  intro a b m ha hlow hhigh
  refine ⟨gfMult_lt_of_degree hlow hhigh ha b, ?product, fun hb => gfMult_comm hlow hhigh ha hb⟩
  case product =>
    apply exists_eq_add_mul_of_mk_eq_residue
    rw [residue_gfMult, map_mul, residue, residue]

/-- Settles O31. -/
theorem gfExp7IsTheSeventhPower : Obligations.GfExp7IsTheSeventhPower := by
  unfold Obligations.GfExp7IsTheSeventhPower
  intro b m hb hlow hhigh
  refine ⟨gfExp7_lt_of_degree hlow hhigh hb, ?power⟩
  case power =>
    apply exists_eq_add_mul_of_mk_eq_residue
    rw [residue_gfExp7, map_pow, residue]

end Sys2Proof.Machine

/-!
The bit permutation and the entries of the tables (41_sbox.md rules R80 to R82, R86, R87 a): O32, O35.
-/

namespace Sys2Proof.Machine

/-! ## The permutation -/

theorem ppos_perm_range : ppos.Perm (List.range 32) := by decide

theorem ppos_inj {k l : Nat} (hk : k < 32) (hl : l < 32) (h : ppos.getD k 0 = ppos.getD l 0) : k = l := by
  have hnodup : ppos.Nodup := ppos_perm_range.nodup_iff.2 List.nodup_range
  rw [List.getD_eq_getElem ppos 0 hk, List.getD_eq_getElem ppos 0 hl] at h
  exact hnodup.getElem_inj_iff.1 h

theorem ppos_lt {k : Nat} (hk : k < 32) : ppos.getD k 0 < 32 := by
  rw [List.getD_eq_getElem ppos 0 hk]
  exact List.mem_range.1 (ppos_perm_range.mem_iff.1 (List.getElem_mem _))

theorem getLsbD_bit_iff {n j : Nat} (hn : n < 32) : (1#32 <<< n).getLsbD j = true ↔ n = j := by
  simp
  omega

/-- R80: entry `k` of `PBOX` is the single bit `PPOS[k]`. -/
theorem getElem?_pbox_eq_some_iff {k : Nat} {w : Word} :
    pbox[k]? = some w ↔ k < 32 ∧ w = 1#32 <<< ppos.getD k 0 := by
  constructor
  · intro h
    obtain ⟨hk, rfl⟩ := List.getElem?_eq_some_iff.1 h
    have hk : k < ppos.length := by simpa [pbox] using hk
    exact ⟨hk, by simp [pbox, hk]⟩
  · rintro ⟨hk, rfl⟩
    have hk : k < ppos.length := hk
    simp [pbox, hk]

/-- The loop of R81 sets a bit when some entry it takes has it. -/
theorem getLsbD_foldl_or (x : Word) (entries : List (Word × Nat)) (res : Word) (j : Nat) :
    (entries.foldl (fun res e => if x.getLsbD e.2 then res ||| e.1 else res) res).getLsbD j =
      (res.getLsbD j || entries.any fun e => x.getLsbD e.2 && e.1.getLsbD j) := by
  induction entries generalizing res with
  | nil => simp
  | cons e entries ih =>
    rw [List.foldl_cons, ih, List.any_cons]
    cases x.getLsbD e.2 <;> simp [Bool.or_assoc]

/-- R81, bit by bit: the ones of the result are the ones of the operand, moved. -/
theorem getLsbD_perm32_iff {x : Word} {j : Nat} :
    (perm32 x).getLsbD j = true ↔ ∃ k < 32, ppos.getD k 0 = j ∧ x.getLsbD k = true := by
  rw [perm32, getLsbD_foldl_or, BitVec.getLsbD_zero, Bool.false_or, List.any_eq_true]
  constructor
  · rintro ⟨⟨w, k⟩, hmem, hand⟩
    obtain ⟨hk, rfl⟩ := getElem?_pbox_eq_some_iff.1 (List.mk_mem_zipIdx_iff_getElem?.1 hmem)
    obtain ⟨hx, hw⟩ := Bool.and_eq_true_iff.1 hand
    exact ⟨k, hk, (getLsbD_bit_iff (ppos_lt hk)).1 hw, hx⟩
  · rintro ⟨k, hk, hj, hx⟩
    exact ⟨(_, k), List.mk_mem_zipIdx_iff_getElem?.2 (getElem?_pbox_eq_some_iff.2 ⟨hk, rfl⟩),
      Bool.and_eq_true_iff.2 ⟨hx, (getLsbD_bit_iff (ppos_lt hk)).2 hj⟩⟩

theorem getLsbD_perm32_ppos (x : Word) {k : Nat} (hk : k < 32) :
    (perm32 x).getLsbD (ppos.getD k 0) = x.getLsbD k := by
  rw [Bool.eq_iff_iff, getLsbD_perm32_iff]
  constructor
  · rintro ⟨l, hl, hpos, hx⟩
    rwa [← ppos_inj hl hk hpos]
  · exact fun hx => ⟨k, hk, rfl, hx⟩

/-! ## Ones inside a mask -/

theorem and_not_eq_zero_of_getLsbD_imp {x y : Word} (h : ∀ k, x.getLsbD k = true → y.getLsbD k = true) :
    x &&& ~~~y = 0#32 := by
  refine BitVec.eq_of_getLsbD_eq fun k hk => ?_
  cases hx : x.getLsbD k with
  | false => simp [hx]
  | true => simp [hx, hk, h k hx]

/-- The permutation keeps ones inside a mask inside the permuted mask. -/
theorem getLsbD_perm32_mono {x y : Word} (h : ∀ k, x.getLsbD k = true → y.getLsbD k = true) (j : Nat)
    (hx : (perm32 x).getLsbD j = true) : (perm32 y).getLsbD j = true := by
  obtain ⟨k, hk, hj, hbit⟩ := getLsbD_perm32_iff.1 hx
  exact getLsbD_perm32_iff.2 ⟨k, hk, hj, h k hbit⟩

/-- Every modulus of `SMOD` has degree 8 (R84). -/
theorem smod_degree (t row : BitVec 2) : 256 ≤ matrixAt 0 smod t row ∧ matrixAt 0 smod t row < 512 := by
  revert t row
  decide

/-- R86: the value that an entry is made of is a byte. -/
theorem sboxByte_lt (t : BitVec 2) (i : BitVec 10) : sboxByte t i < 256 := by
  obtain ⟨hlow, hhigh⟩ := smod_degree t (indexRow i)
  exact gfExp7_lt_of_degree hlow hhigh (BitVec.isLt _)

/-- A byte moved to an offset has its ones inside the byte lane of that offset. -/
theorem getLsbD_byteLane {b : Nat} (hb : b < 256) (n k : Nat) (h : (BitVec.ofNat 32 (b <<< n)).getLsbD k = true) :
    (BitVec.ofNat 32 (0xff <<< n)).getLsbD k = true := by
  simp only [BitVec.getLsbD_ofNat, Nat.testBit_shiftLeft, Bool.and_eq_true, decide_eq_true_eq] at h ⊢
  obtain ⟨hk, hn, hbit⟩ := h
  have hlt : k - n < 8 := by
    by_contra hge
    rw [Nat.testBit_lt_two_pow (hb.trans_le (Nat.pow_le_pow_right (n := 2) (i := 8) (by omega) (by omega)))] at hbit
    cases hbit
  exact ⟨hk, hn, by rw [Nat.testBit_two_pow_sub_one (n := 8)]; simpa using hlt⟩

/-- R87 (a): a mask is its table's byte lane, permuted. -/
theorem tableMasks_eq_perm32 (t : BitVec 2) :
    tableMasks.getD t.toNat 0 = perm32 (BitVec.ofNat 32 (0xff <<< (24 - 8 * t.toNat))) := by
  revert t
  decide

/-! ## The obligations -/

/-- Settles O32. -/
theorem perm32MovesEachBit : Obligations.Perm32MovesEachBit := by
  unfold Obligations.Perm32MovesEachBit
  exact ⟨ppos_perm_range, fun x s => ⟨perm32 x, fun _ => getLsbD_perm32_ppos x, rfl⟩⟩

/-- Settles O35: an entry is a byte in its lane, permuted, and its mask is the whole lane, permuted. -/
theorem entriesLieInTheirMask : Obligations.EntriesLieInTheirMask := by
  unfold Obligations.EntriesLieInTheirMask
  refine ⟨fun t i => ?mask, by decide, by decide⟩
  case mask =>
    rw [tableMasks_eq_perm32]
    exact and_not_eq_zero_of_getLsbD_imp (getLsbD_perm32_mono (getLsbD_byteLane (sboxByte_lt t i) _))

end Sys2Proof.Machine

/-!
Obligations on the tables, built at first use or constant (41_sbox.md rules R88 to R92): O33, O34, O56.
-/

namespace Sys2Proof.Machine

/-! ## Building and reading -/

theorem ensureTables_of_invalid {s : State} (h : s.tables.valid = false) :
    s.ensureTables = { s with tables := buildTables s.tables } := by
  simp [State.ensureTables, ensureSbox_of_invalid h]

theorem TablesOk.read_eq {p : Config.Params} {T : TableSet} (h : TablesOk p T) (hvalid : T.valid = true)
    (t : BitVec 2) (i : BitVec 10) : T.read t i = .ok (sboxEntry t i) :=
  read_of_contents hvalid (by simp [h.contents, hvalid]) t i

/-- SBINIT completes in every state (R90). -/
theorem exec_sbinit (s : State) : exec .sbinit s = .next (s.ensureTables.answer [0x00]) := rfl

/-- SBRD completes with the entry of R86 in every state of the invariant (R91). -/
theorem BlockInv.exec_sbrd {s : State} (h : BlockInv s) (t : BitVec 2) (i : BitVec 10) :
    Machine.exec (.sbrd t i) s = .next (s.ensureTables.answer (0x00 :: bytes32 (sboxEntry t i))) := by
  have hread := h.tables.ensureSbox.read_eq (ensureSbox_valid _) t i
  simp only [Machine.exec, execSbrd, ensureTables_tables, hread]
  rfl

/-! ## What a computation sees of the tables: their reads, and not the number of builds -/

section
variable {T U : TableSet} (hread : T.read = U.read)

include hread

theorem roundF_congr : roundF T = roundF U := by
  unfold roundF lookup
  rw [hread]

theorem roundPair_congr : roundPair T = roundPair U := by
  unfold roundPair
  rw [roundF_congr hread]

theorem encryptFrom_congr (sched : List Subkey) (n i : Nat) (lr : Word × Word) :
    encryptFrom T sched n i lr = encryptFrom U sched n i lr := by
  induction n generalizing i lr with
  | zero => rfl
  | succ n ih => simp only [encryptFrom, roundPair_congr hread, ih]

theorem decryptFrom_congr (sched : List Subkey) (n : Nat) (lr : Word × Word) :
    decryptFrom T sched n lr = decryptFrom U sched n lr := by
  induction n generalizing lr with
  | zero => rfl
  | succ n ih => simp only [decryptFrom, roundPair_congr hread, ih]

theorem encryptBlock_congr : encryptBlock T = encryptBlock U := by
  funext sched rounds data
  rw [encryptBlock, encryptFrom_congr hread, encryptBlock]

theorem decryptBlock_congr : decryptBlock T = decryptBlock U := by
  funext sched rounds data
  rw [decryptBlock, decryptFrom_congr hread, decryptBlock]

theorem decryptChunks_congr (sched : List Subkey) (rounds : Nat) (buf : List Byte) (stop n pos : Nat)
    (out : List Byte) :
    decryptChunks T sched rounds buf stop n pos out = decryptChunks U sched rounds buf stop n pos out := by
  induction n generalizing pos out with
  | zero => rfl
  | succ n ih => simp only [decryptChunks, decryptBlock_congr hread, ih]

theorem decryptRange_congr : decryptRange T = decryptRange U := by
  funext sched rounds buf start stop
  exact decryptChunks_congr hread ..

end

/-! ## A block with constants beside one that builds -/

/-- R92: constants are for ever what they are at reset. -/
theorem TablesOk.eq_atReset {p : Config.Params} {T : TableSet} (h : TablesOk p T) (hrom : p.sboxRom = true) :
    T = TableSet.atReset p.sboxRom := by
  obtain ⟨hvalid, hbuilds⟩ := h.rom hrom
  have hsbox : T.sbox = builtTables := by simp [h.contents, hvalid]
  obtain ⟨sbox, valid, builds⟩ := T
  subst hvalid hbuilds hsbox
  rw [hrom]
  rfl

/-- Two blocks that differ in `SBOX_ROM` and in what it makes of their tables (R92). -/
structure RomTwin (lazy rom : State) : Prop where
  /-- the block that builds at first use -/
  lazyInv : BlockInv lazy
  /-- the block with constants -/
  romInv : BlockInv rom
  /-- R5: the one parameter that differs -/
  params : rom.params = { lazy.params with sboxRom := true }
  /-- the same contexts -/
  ctxs : rom.ctxs = lazy.ctxs

/-- Both commands end, `a` and `b` being their responses; the constants stay, and the contexts are alike. -/
def EndWith (lazy rom : State) (o p : Out) (a b : List Byte) : Prop :=
  ∃ lazy' rom' : State, o = .next lazy' ∧ p = .next rom' ∧
    lazy'.responses = lazy.responses ++ [{ requester := lazy.serving, bytes := a }] ∧
    rom'.responses = rom.responses ++ [{ requester := rom.serving, bytes := b }] ∧
    rom'.tables = rom.tables ∧ rom'.ctxs = lazy'.ctxs

/-- Both commands end, with the same response. -/
def RespondAlike (lazy rom : State) (o p : Out) : Prop := ∃ bs, EndWith lazy rom o p bs bs

section
variable {lazy rom : State}

theorem EndWith.answer (hctxs : rom.ctxs = lazy.ctxs) (a b : List Byte) :
    EndWith lazy rom (.next (lazy.answer a)) (.next (rom.answer b)) a b :=
  ⟨_, _, rfl, rfl, rfl, rfl, rfl, hctxs⟩

theorem RespondAlike.answer (hctxs : rom.ctxs = lazy.ctxs) (bs : List Byte) :
    RespondAlike lazy rom (.next (lazy.answer bs)) (.next (rom.answer bs)) := ⟨bs, .answer hctxs bs bs⟩

theorem RespondAlike.deliver (hctxs : rom.ctxs = lazy.ctxs) {v : Except Fault Result} (h : HasValue v) :
    RespondAlike lazy rom (deliver lazy v) (deliver rom v) := by
  obtain ⟨r, rfl⟩ := h
  exact .answer hctxs _

namespace RomTwin

variable (h : RomTwin lazy rom)

include h

theorem sboxRom : rom.params.sboxRom = true := by rw [h.params]

theorem rom_tables_eq_atReset : rom.tables = TableSet.atReset rom.params.sboxRom :=
  h.romInv.tables.eq_atReset h.sboxRom

theorem rom_valid : rom.tables.valid = true := by rw [h.rom_tables_eq_atReset, atReset_valid, h.sboxRom]

/-- Once the lazy tables are valid they read as the constants do. -/
theorem read_eq {T : TableSet} (hT : TablesOk lazy.params T) (hvalid : T.valid = true) :
    rom.tables.read = T.read := by
  funext t i
  rw [h.romInv.tables.read_eq h.rom_valid, hT.read_eq hvalid]

theorem rom_ensureTables : rom.ensureTables = rom := ensureTables_of_valid h.rom_valid

theorem limits : rom.limits = lazy.limits := by
  simp [State.limits, State.nctx, h.params, h.ctxs]

/-- The guards on a context and a byte sequence. -/
theorem respondAlike_guards {ctx : Byte} {bs : List Byte} {k l : Context → Out}
    (hkl : ∀ c, lazy.ctxs[ctx.toNat]? = some c → RespondAlike lazy rom (k c) (l c)) :
    RespondAlike lazy rom (withContext lazy ctx fun c => withBytes lazy bs (k c))
      (withContext rom ctx fun c => withBytes rom bs (l c)) := by
  unfold withContext withBytes
  rw [h.ctxs, h.limits]
  split
  next c hc =>
    split
    · exact hkl c hc
    · exact .answer h.ctxs _
  next => exact .answer h.ctxs _

/-- The guards up to the key: behind them the context is keyed, so the tables of both blocks can be read (R27 a). -/
theorem respondAlike_keyedGuards {ctx : Byte} {bs : List Byte} {k l : Context → Out}
    (hkl : ∀ c, lazy.tables.Readable → c.rounds.toNat ≤ c.sched.length →
      rom.tables.read = lazy.tables.read → RespondAlike lazy rom (k c) (l c)) :
    RespondAlike lazy rom (withContext lazy ctx fun c => withBytes lazy bs <| withKey lazy c (k c))
      (withContext rom ctx fun c => withBytes rom bs <| withKey rom c (l c)) := by
  refine h.respondAlike_guards fun c hc => ?_
  unfold withKey
  split
  next hkey =>
    obtain ⟨hT, hsched⟩ := h.lazyInv.keyed_readable ⟨hc, hkey⟩
    have ⟨hvalid, _⟩ := hT
    exact hkl c hT hsched (h.read_eq h.lazyInv.tables hvalid)
  next => exact .answer h.ctxs _

/-- The commands on one block. -/
theorem respondAlike_withBlock {data : List Byte} {v : Except Fault Result} (hv : HasValue v) :
    RespondAlike lazy rom (withBlock lazy data (deliver lazy v)) (withBlock rom data (deliver rom v)) := by
  unfold withBlock
  split
  · exact .deliver h.ctxs hv
  · exact .answer h.ctxs _

theorem execKeyset_respondAlike (ctx : Byte) (level : Word) (key : List Byte) :
    RespondAlike lazy rom (execKeyset ctx level key lazy) (execKeyset ctx level key rom) := by
  refine h.respondAlike_guards fun c _ => ?_
  have hlevel : levelSupported rom.params = levelSupported lazy.params := by rw [h.params]; rfl
  rw [hlevel]
  split
  · split
    · refine ⟨[0x00], _, _, rfl, rfl, rfl, rfl, ?tables, ?contexts⟩
      case tables => exact ensureSbox_of_valid h.rom_valid
      case contexts => exact congrArg (·.set ctx.toNat (keyedContext level key)) h.ctxs
    · exact .answer h.ctxs _
  · exact .answer h.ctxs _

/-- R92, for every command but STAT. -/
theorem exec_respondAlike (i : Instr) (hi : ∀ ctx, i ≠ .stat ctx) :
    RespondAlike lazy rom (exec i lazy) (exec i rom) := by
  have hused : rom.ctxs = lazy.ensureTables.ctxs := h.ctxs
  cases i with
  | gfmul a b m => exact .answer h.ctxs _
  | gfexp7 b m => exact .answer h.ctxs _
  | perm32 x => exact .answer h.ctxs _
  | sbinit =>
    rw [exec_sbinit, exec_sbinit, h.rom_ensureTables]
    exact .answer hused _
  | sbrd t n =>
    rw [h.lazyInv.exec_sbrd, h.romInv.exec_sbrd, h.rom_ensureTables]
    exact .answer hused _
  | keyset ctx level key => exact h.execKeyset_respondAlike ctx level key
  | roundf p sk0 sk1 sk2 =>
    have hread := h.read_eq h.lazyInv.tables.ensureSbox (ensureSbox_valid _)
    simp only [exec, execRoundf, h.rom_ensureTables, roundF_congr hread]
    exact .deliver hused <| (hasValue_roundF h.lazyInv.readable_ensureSbox p _).map _
  | enc ctx data =>
    refine h.respondAlike_keyedGuards fun c hT hsched hread => ?_
    rw [encryptBlock_congr hread]
    exact h.respondAlike_withBlock <| (hasValue_encryptBlock hT hsched data).map _
  | dec ctx data =>
    refine h.respondAlike_keyedGuards fun c hT hsched hread => ?_
    rw [decryptBlock_congr hread]
    exact h.respondAlike_withBlock <| (hasValue_decryptBlock hT hsched data).map _
  | decrng ctx start stop buf =>
    refine h.respondAlike_keyedGuards fun c hT hsched hread => ?_
    rw [decryptRange_congr hread]
    split
    · exact .deliver h.ctxs <| (hasValue_decryptRange hT hsched ..).map _
    · exact .answer h.ctxs _
  | decall ctx buf =>
    refine h.respondAlike_keyedGuards fun c hT hsched hread => ?_
    rw [decryptRange_congr hread]
    exact .deliver h.ctxs <| (hasValue_decryptRange hT hsched ..).map _
  | stat ctx => exact absurd rfl (hi ctx)

/-- R92, for STAT: the two records differ in `sbox_valid` before the first use and in `sbox_builds`. -/
theorem execStat_endWith (ctx : Byte) :
    ∃ a b, EndWith lazy rom (execStat ctx lazy) (execStat ctx rom) a b ∧ a.take 1 = b.take 1 ∧
      a.drop 6 = b.drop 6 ∧ (lazy.tables.valid = true → a.take 2 = b.take 2) := by
  unfold execStat
  cases hc : lazy.ctxs[ctx.toNat]? with
  | none =>
    rw [withContext_of_none hc, withContext_of_none (h.ctxs ▸ hc)]
    exact ⟨_, _, .answer h.ctxs _ _, rfl, rfl, fun _ => rfl⟩
  | some c =>
    rw [withContext_of_some hc, withContext_of_some (h.ctxs ▸ hc)]
    refine ⟨_, _, .answer h.ctxs _ _, rfl, rfl, fun hvalid => ?valid⟩
    case valid => simp [okBytes, Result.encode, statusOf, hvalid, h.rom_valid]

end RomTwin

end

/-! ## The obligations -/

/-- Settles O33. -/
theorem sbinitBuildsOnce : Obligations.SbinitBuildsOnce := by
  unfold Obligations.SbinitBuildsOnce
  intro s
  rw [exec_sbinit]
  refine ⟨fun hvalid => by rw [ensureTables_of_valid hvalid], fun hinvalid => ?builds⟩
  case builds =>
    exact ⟨buildTables s.tables, read_of_contents rfl rfl, rfl, rfl, by rw [ensureTables_of_invalid hinvalid]⟩

/-- Settles O34. -/
theorem sbrdReadsTheEntry : Obligations.SbrdReadsTheEntry := by
  unfold Obligations.SbrdReadsTheEntry
  exact fun t i s h => h.exec_sbrd t i

/-- Settles O56: STAT's two answers are compared field by field, those of every other command are one. -/
theorem romAndLazyTablesAnswerAlike : Obligations.RomAndLazyTablesAnswerAlike := by
  unfold Obligations.RomAndLazyTablesAnswerAlike
  intro i lazy rom hlazy hrom _ hparams hctxs _
  have h : RomTwin lazy rom := ⟨hlazy, hrom, hparams, hctxs⟩
  refine ⟨h.rom_tables_eq_atReset, h.rom_valid, hrom.tables.read_eq h.rom_valid, ?responses⟩
  case responses =>
    by_cases hi : ∀ ctx, i ≠ .stat ctx
    · obtain ⟨bs, lazy', rom', hl, hr, hlresp, hrresp, htables, hctxs'⟩ := h.exec_respondAlike i hi
      exact ⟨lazy', rom', bs, bs, hl, hr, hlresp, hrresp, htables, hctxs', fun _ => rfl, rfl, rfl, fun _ => rfl⟩
    · push Not at hi
      obtain ⟨ctx, rfl⟩ := hi
      obtain ⟨a, b, ⟨lazy', rom', hl, hr, hlresp, hrresp, htables, hctxs'⟩, hbytes⟩ := h.execStat_endWith ctx
      exact ⟨lazy', rom', a, b, hl, hr, hlresp, hrresp, htables, hctxs', fun hne => absurd rfl (hne ctx), hbytes⟩

end Sys2Proof.Machine

/-!
A pass of the scheduler as a function of its own, apart from the place it writes to (42_key_schedule.md rules R98, R99):
the eight subkeys it makes, the words it leaves, and how it writes into a schedule. O38 and O40.
-/

namespace Sys2Proof.Machine

/-! ## The words -/

/-- The same operation on each of the four words. -/
def KeyWords.map (f : KeyWord → KeyWord) (kb : KeyWords) : KeyWords :=
  { w0 := f kb.w0, w1 := f kb.w1, w2 := f kb.w2, w3 := f kb.w3 }

/-- The four visits of an iteration meet each word once, whichever comes first. -/
theorem visitWords_words (w : Nat) (kb : KeyWords) (lane : Lane) :
    (visitWords 4 w kb lane).1 = kb.map stepWord := by
  have hw : w % 4 = 0 ∨ w % 4 = 1 ∨ w % 4 = 2 ∨ w % 4 = 3 := by omega
  rcases hw with hw | hw | hw | hw <;> simp [visitWords, KeyWords.map, Nat.add_mod, hw]

theorem extractStep_words (kr : Nat) (st : KeyWords × Subkey) (j : Nat) :
    (extractStep kr st j).1 = st.1.map stepWord := by
  unfold extractStep
  split <;> exact visitWords_words ..

theorem foldl_extractStep_words (kr : Nat) (js : List Nat) (st : KeyWords × Subkey) :
    (js.foldl (extractStep kr) st).1 = st.1.map stepWord^[js.length] := by
  induction js generalizing st with
  | nil => rfl
  | cons j js ih => rw [List.foldl_cons, ih, extractStep_words]; rfl

/-- A round steps every word 15 times (R99 c). -/
theorem extractRound_words (kb : KeyWords) (kr : Nat) : (extractRound kb kr).1 = kb.map stepWord^[15] :=
  foldl_extractStep_words kr (List.range 15) (kb, Subkey.zero)

theorem schedBuildFrom_words (n off k i : Nat) (sched : List Subkey) (kb : KeyWords) :
    (schedBuildFrom n off k i sched kb).2 = kb.map stepWord^[15 * k] := by
  induction k generalizing i sched kb with
  | zero => rfl
  | succ k ih =>
    rw [schedBuildFrom, ih, extractRound_words, Nat.mul_succ, Function.iterate_add]
    rfl

/-- A pass steps every word 120 times, wherever it writes (R99 c). -/
theorem schedBuild_words (kb : KeyWords) (sched : List Subkey) (n off : Nat) :
    (schedBuild kb sched n off).2 = kb.map stepWord^[120] := schedBuildFrom_words n off 8 0 sched kb

/-! ## A word stepped many times -/

theorem getLsbD_stepWord (w : KeyWord) {j : Nat} (hj : j < 16) :
    (stepWord w).getLsbD j = if j < 15 then w.getLsbD (j + 1) else !w.getLsbD 0 := by
  simp only [stepWord, BitVec.getLsbD_or, BitVec.getLsbD_ushiftRight, BitVec.getLsbD_shiftLeft, BitVec.getLsbD_xor,
    BitVec.getLsbD_and, BitVec.getLsbD_one]
  split
  next hlt => simp [hlt, Nat.add_comm]
  next hge =>
    obtain rfl : j = 15 := by omega
    simp

/-- Up to 16 steps bring each bit down, the bits that fall out entering complemented at the top. -/
theorem getLsbD_iterate_stepWord (w : KeyWord) {k j : Nat} (hk : k ≤ 16) (hj : j < 16) :
    (stepWord^[k] w).getLsbD j = if j + k < 16 then w.getLsbD (j + k) else !w.getLsbD (j + k - 16) := by
  induction k generalizing j with
  | zero => simp [hj]
  | succ k ih =>
    rw [Function.iterate_succ_apply', getLsbD_stepWord _ hj]
    split
    next hlt => rw [ih (by omega) (by omega), Nat.add_right_comm, Nat.add_assoc]
    next hge =>
      obtain rfl : j = 15 := by omega
      rw [ih (by omega) (by omega), if_pos (by omega), if_neg (by omega)]
      congr 2
      omega

theorem iterate_stepWord_sixteen (w : KeyWord) : stepWord^[16] w = ~~~w := by
  refine BitVec.eq_of_getLsbD_eq fun j hj => ?_
  rw [getLsbD_iterate_stepWord w le_rfl hj, if_neg (by omega), Nat.add_sub_cancel, BitVec.getLsbD_not,
    decide_eq_true hj, Bool.true_and]

theorem iterate_stepWord_eight (w : KeyWord) :
    stepWord^[8] w = ~~~(w.extractLsb' 0 8) ++ w.extractLsb' 8 8 := by
  refine BitVec.eq_of_getLsbD_eq fun j hj => ?_
  rw [getLsbD_iterate_stepWord w (by decide) hj, BitVec.getLsbD_append, BitVec.getLsbD_not, BitVec.getLsbD_extractLsb',
    BitVec.getLsbD_extractLsb']
  split
  next hlow => simp [show j < 8 by omega, Nat.add_comm]
  next hhigh => simp [show ¬ j < 8 by omega, show j - 8 < 8 by omega, show j + 8 - 16 = j - 8 by omega]

theorem iterate_stepWord_thirtyTwo : stepWord^[32] = id := by
  funext w
  rw [show 32 = 16 + 16 from rfl, Function.iterate_add_apply, iterate_stepWord_sixteen, iterate_stepWord_sixteen,
    BitVec.not_not]
  rfl

/-- Whole turns of 32 steps do nothing. -/
theorem iterate_stepWord_add_turns (k turns : Nat) : stepWord^[k + 32 * turns] = stepWord^[k] := by
  rw [Function.iterate_add, Function.iterate_mul, iterate_stepWord_thirtyTwo, Function.iterate_id, Function.comp_id]

/-- R99 (c) for one pass. -/
theorem iterate_stepWord_onePass (w : KeyWord) :
    stepWord^[120] w = w.extractLsb' 0 8 ++ ~~~(w.extractLsb' 8 8) := by
  rw [iterate_stepWord_add_turns 24 3, Function.iterate_add_apply stepWord 16 8, iterate_stepWord_eight,
    iterate_stepWord_sixteen]
  exact BitVec.not_append.trans (by rw [BitVec.not_not])

/-- R99 (c) for two passes. -/
theorem iterate_stepWord_twoPasses (w : KeyWord) : stepWord^[120] (stepWord^[120] w) = ~~~w := by
  rw [← Function.iterate_add_apply, iterate_stepWord_add_turns 16 7, iterate_stepWord_sixteen]

/-! ## The entries -/

/-- The subkeys of `k` rounds from round `i` on (R98). -/
def roundSubkeys (off : Nat) : Nat → Nat → KeyWords → List Subkey
  | 0, _, _ => []
  | k + 1, i, kb =>
    let r := extractRound kb (keyrot.getD (off + i) 0)
    r.2 :: roundSubkeys off k (i + 1) r.1

/-- The rounds put their subkeys in the place of as many entries, and keep what stands before and after. -/
theorem schedBuildFrom_entries {n i : Nat} (off k : Nat) {before mid : List Subkey} (after : List Subkey)
    (kb : KeyWords) (hbefore : before.length = n + i) (hmid : mid.length = k) :
    (schedBuildFrom n off k i (before ++ (mid ++ after)) kb).1 = before ++ (roundSubkeys off k i kb ++ after) := by
  induction k generalizing i before mid kb with
  | zero => rw [List.eq_nil_of_length_eq_zero hmid]; rfl
  | succ k ih =>
    obtain ⟨sk, mid, rfl⟩ := List.exists_cons_of_length_eq_add_one hmid
    have hset (r : Subkey) :
        (before ++ (sk :: mid ++ after)).set (n + i) r = (before ++ [r]) ++ (mid ++ after) := by
      rw [← hbefore, List.set_append_right _ _ le_rfl]; simp
    have hrest := ih (i := i + 1) (before := before ++ [(extractRound kb (keyrot.getD (off + i) 0)).2])
      (extractRound kb (keyrot.getD (off + i) 0)).1 (by simp [hbefore, Nat.add_assoc]) (Nat.succ.inj hmid)
    rw [schedBuildFrom, hset, hrest, roundSubkeys, List.append_assoc]
    rfl

/-- The eight entries of a pass (R98). -/
def passEntries (kb : KeyWords) (off : Nat) : List Subkey := (schedBuild kb (blankSched 8) 0 off).1

@[simp] theorem length_passEntries (kb : KeyWords) (off : Nat) : (passEntries kb off).length = 8 := by
  simp [passEntries]

theorem passEntries_eq_roundSubkeys (kb : KeyWords) (off : Nat) : passEntries kb off = roundSubkeys off 8 0 kb := by
  simpa [passEntries, schedBuild] using
    schedBuildFrom_entries (n := 0) (i := 0) off 8 (before := []) (mid := blankSched 8) [] kb rfl rfl

/-- R99 (e): a pass at `n` replaces the eight entries from `n` on and keeps the others. -/
theorem schedBuild_entries {n : Nat} {before mid : List Subkey} (after : List Subkey) (kb : KeyWords) (off : Nat)
    (hbefore : before.length = n) (hmid : mid.length = 8) :
    (schedBuild kb (before ++ (mid ++ after)) n off).1 = before ++ (passEntries kb off ++ after) := by
  rw [passEntries_eq_roundSubkeys]
  exact schedBuildFrom_entries off 8 after kb hbefore hmid

/-- R99 (e), entry by entry: below `n`, from `n` to `n + 7`, and above. -/
theorem getElem?_schedBuild (kb : KeyWords) {sched : List Subkey} {n : Nat} (off : Nat) (hfit : n + 8 ≤ sched.length)
    (k : Nat) :
    (schedBuild kb sched n off).1[k]? = if n ≤ k ∧ k < n + 8 then (passEntries kb off)[k - n]? else sched[k]? := by
  have hcut : sched = sched.take n ++ ((sched.drop n).take 8 ++ sched.drop (n + 8)) := by simp
  have hbefore : (sched.take n).length = n := List.length_take_of_le (by omega)
  have hmid : ((sched.drop n).take 8).length = 8 := List.length_take_of_le (by rw [List.length_drop]; omega)
  have hentries : (passEntries kb off).length = 8 := length_passEntries kb off
  have hpass := schedBuild_entries (sched.drop (n + 8)) kb off hbefore hmid
  rw [← hcut] at hpass
  rw [hpass]
  rcases Nat.lt_or_ge k n with hbelow | hfrom
  case inl => rw [List.getElem?_append_left (by omega), List.getElem?_take_of_lt hbelow, if_neg (by omega)]
  case inr =>
    rw [List.getElem?_append_right (by omega), hbefore]
    rcases Nat.lt_or_ge k (n + 8) with hinside | habove
    case inl => rw [List.getElem?_append_left (by omega), if_pos ⟨hfrom, hinside⟩]
    case inr =>
      rw [List.getElem?_append_right (by omega), List.getElem?_drop, hentries, if_neg (by omega)]
      congr 1
      omega

/-! ## The obligations -/

/-- Settles O38. -/
theorem passWritesEightEntries : Obligations.PassWritesEightEntries := by
  unfold Obligations.PassWritesEightEntries
  intro kb sched n off hfit
  exact ⟨by rw [schedBuild_words, schedBuild_words], getElem?_schedBuild kb off hfit⟩

/-- Settles O40. -/
theorem twoPassesComplementTheWords : Obligations.TwoPassesComplementTheWords := by
  unfold Obligations.TwoPassesComplementTheWords
  intro kb sched n m
  simp only [schedBuild_words]
  constructor
  · simp only [KeyWords.map, iterate_stepWord_onePass, and_self]
  · simp only [KeyWords.map, iterate_stepWord_twoPasses]

end Sys2Proof.Machine

/-!
How the passes of all key blocks fill a schedule (42_key_schedule.md rules R100 to R102), and what follows for the thin
cipher (44_block_engine.md rule R125 b): O39 and O41.
-/

namespace Sys2Proof.Machine

/-! ## The general schedule -/

@[simp] theorem length_forwardEntries (key : List Byte) (i : Nat) : (forwardEntries key i).length = 8 :=
  length_passEntries ..

@[simp] theorem length_tailEntries (key : List Byte) (i : Nat) : (tailEntries key i).length = 8 :=
  length_passEntries ..

/-- The two passes of block `i` fill the first and the last eight of the entries that are still blank. -/
theorem expandBlock_entries {i m rounds : Nat} (key : List Byte) {before after : List Subkey}
    (hbefore : before.length = 8 * i) (hrounds : rounds = 16 * i + 16 * (m + 1)) :
    expandBlock key rounds (before ++ (blankSched (16 * (m + 1)) ++ after)) i =
      (before ++ forwardEntries key i) ++ (blankSched (16 * m) ++ (tailEntries key i ++ after)) := by
  have hblank : blankSched (16 * (m + 1)) = blankSched 8 ++ (blankSched (16 * m) ++ blankSched 8) := by
    simp only [blankSched, List.replicate_append_replicate]
    congr 1
    omega
  have hwords (sched : List Subkey) (n : Nat) :
      (schedBuild (keyWords key i) sched n 0).2 = (schedBuild (keyWords key i) (blankSched 8) 0 0).2 := by
    rw [schedBuild_words, schedBuild_words]
  have hforward := schedBuild_entries (blankSched (16 * m) ++ (blankSched 8 ++ after)) (keyWords key i) 0
    hbefore (length_blankSched 8)
  have htail := schedBuild_entries (n := rounds - 8 - 8 * i)
    (before := before ++ (forwardEntries key i ++ blankSched (16 * m))) after
    (schedBuild (keyWords key i) (blankSched 8) 0 0).2 8 (by simp; omega) (length_blankSched 8)
  simp only [List.append_assoc] at htail
  rw [expandBlock, hwords, hblank]
  simp only [List.append_assoc, hforward]
  exact htail

/-- After `i` blocks the forward entries stand at the front and the tail entries at the back, the rest still blank. -/
theorem foldl_expandBlock_entries (key : List Byte) (i m : Nat) {rounds : Nat} (hrounds : rounds = 16 * i + 16 * m) :
    (List.range i).foldl (expandBlock key rounds) (blankSched rounds) =
      (List.range i).flatMap (forwardEntries key) ++
        (blankSched (16 * m) ++ (List.range i).reverse.flatMap (tailEntries key)) := by
  induction i generalizing m with
  | zero => simp [hrounds]
  | succ i ih =>
    rw [List.range_succ, List.foldl_concat, ih (m + 1) (by omega),
      expandBlock_entries key (by simp; omega) (by omega)]
    simp

/-- Settles O39. -/
theorem generalScheduleTiles : Obligations.GeneralScheduleTiles := by
  unfold Obligations.GeneralScheduleTiles
  intro key size
  rw [keyExpandGeneral, foldl_expandBlock_entries key size 0 (by omega)]
  rfl

/-! ## The thin cipher -/

/-- R100, R102: every level below 1 has the thin schedule, the forward pass of its one block. -/
theorem keyExpand_thin {level : Int} (h : level < 1) (key : List Byte) : keyExpand level key = forwardEntries key 0 := by
  simp [keyExpand, variant, h, keyExpandThin, forwardEntries]

/-- R102: the schedule of level 1 is the forward pass and the tail pass of its one block. -/
theorem keyExpand_one (key : List Byte) : keyExpand 1 key = forwardEntries key 0 ++ tailEntries key 0 := by
  simpa [keyExpand, variant] using generalScheduleTiles key 1

theorem keyExpand_thin_eq_take {level : Int} (h : level < 1) (key : List Byte) :
    keyExpand level key = (keyExpand 1 key).take 8 := by
  rw [keyExpand_thin h, keyExpand_one, List.take_left' (length_forwardEntries key 0)]

theorem readSched_take (sched : List Subkey) {n m : Nat} (h : n < m) :
    readSched (sched.take m) n = readSched sched n := by
  rw [readSched, List.getElem?_take_of_lt h, readSched]

/-- The rounds read no entry above their own. -/
theorem encryptFrom_take (T : TableSet) (sched : List Subkey) {n i m : Nat} (h : i + 2 * n ≤ m) (lr : Word × Word) :
    encryptFrom T (sched.take m) n i lr = encryptFrom T sched n i lr := by
  induction n generalizing i lr with
  | zero => rfl
  | succ n ih =>
    have hpair : roundPair T (sched.take m) i (i + 1) lr = roundPair T sched i (i + 1) lr := by
      rw [roundPair, readSched_take sched (by omega), readSched_take sched (by omega), roundPair]
    simp only [encryptFrom, hpair, ih (by omega : i + 2 + 2 * n ≤ m)]

theorem encryptBlock_take (T : TableSet) (sched : List Subkey) (rounds : Nat) (data : List Byte) :
    encryptBlock T (sched.take rounds) rounds data = encryptBlock T sched rounds data := by
  rw [encryptBlock, encryptFrom_take T sched (by omega), encryptBlock]

/-- Settles O41. -/
theorem thinCipherIsEightRoundsOfLevelOne : Obligations.ThinCipherIsEightRoundsOfLevelOne := by
  unfold Obligations.ThinCipherIsEightRoundsOfLevelOne
  intro key level hthin
  have htake := keyExpand_thin_eq_take hthin key
  exact ⟨htake, fun T data => by rw [htake, encryptBlock_take]⟩

end Sys2Proof.Machine

/-!
KEYSET where it succeeds (42_key_schedule.md rules R102 to R104): O37.
-/

namespace Sys2Proof.Machine

/-- R104: a KEYSET whose checks all pass ends with its context written. -/
theorem exec_keyset_of_checks {s : State} {ctx : Byte} {level : Word} {key : List Byte} (hctx : ctx.toNat < s.nctx)
    (hfit : key.length ≤ s.params.maxBuf) (hlevel : levelSupported s.params level.toInt = true)
    (hlen : key.length = 8 * (variant level.toInt).1) :
    exec (.keyset ctx level key) s = .next (s.afterKeyset ctx level key) := by
  rw [exec, execKeyset, withContext_of_some (List.getElem?_eq_getElem hctx), withBytes_of_fit (bytesFit_iff.2 hfit),
    if_pos hlevel, if_pos hlen]
  rfl

/-- Settles O37. -/
theorem keysetWritesTheContext : Obligations.KeysetWritesTheContext := by
  unfold Obligations.KeysetWritesTheContext
  intro s ctx level key hlegal hctx hfit hlevel hlen
  obtain ⟨-, -, hmaxBuf⟩ := hlegal
  exact ⟨keyedContext level key, rfl, rfl, keyedContext_size_toNat (hfit.trans hmaxBuf) hlen,
    keyedContext_rounds_toNat (hfit.trans hmaxBuf) hlen, rfl, rfl, length_keyExpand ..,
    exec_keyset_of_checks hctx hfit hlevel hlen⟩

end Sys2Proof.Machine

/-!
The round function (43_round_function.md): each of its three stages by itself, then the round and ROUNDF. O42 to O45.
-/

namespace Sys2Proof.Machine

/-! ## Expansion (R110) -/

/-- The two masks of R110 join the low ten bits of one word and the ten bits above these of another. -/
theorem setWidth_or_masks (x y : Word) :
    ((x &&& 0x3ff#32) ||| (y &&& 0xffc00#32)).setWidth 20 = y.extractLsb' 10 10 ++ x.extractLsb' 0 10 := by
  have hlow : ∀ k < 32, (0x3ff#32).getLsbD k = decide (k < 10) := by decide
  have hhigh : ∀ k < 32, (0xffc00#32).getLsbD k = decide (10 ≤ k ∧ k < 20) := by decide
  refine BitVec.eq_of_getLsbD_eq fun k hk => ?_
  simp only [BitVec.getLsbD_setWidth, BitVec.getLsbD_or, BitVec.getLsbD_and, BitVec.getLsbD_append,
    BitVec.getLsbD_extractLsb', hlow k (by omega), hhigh k (by omega), hk]
  by_cases hk10 : k < 10
  · simp [hk10, Nat.not_le.2 hk10]
  · simp [hk10, Nat.not_lt.1 hk10, show k - 10 < 10 by omega]

/-- The rotation of R110 puts bits 31 to 24 above the low ten bits, and bits 1 and 0 above these. -/
theorem extractLsb'_rotateRight_fourteen (p : Word) :
    (p.rotateRight 14).extractLsb' 10 10 = p.extractLsb' 0 2 ++ p.extractLsb' 24 8 := by
  refine BitVec.eq_of_getLsbD_eq fun k hk => ?_
  simp only [BitVec.getLsbD_extractLsb', BitVec.getLsbD_rotateRight, BitVec.getLsbD_append]
  by_cases hk8 : k < 8
  · simp [hk, hk8, show 10 + k < 18 by omega, show 14 + (10 + k) = 24 + k by omega]
  · simp [hk, hk8, show ¬ 10 + k < 18 by omega, show 10 + k < 32 by omega, show k - 8 < 2 by omega,
      show 10 + k - 18 = k - 8 by omega]

theorem extractLsb'_shiftLeft_two (p : Word) : (p <<< 2).extractLsb' 10 10 = p.extractLsb' 8 10 := by
  refine BitVec.eq_of_getLsbD_eq fun k hk => ?_
  simp only [BitVec.getLsbD_extractLsb', BitVec.getLsbD_shiftLeft]
  simp [show 10 + k < 32 by omega, show ¬ 10 + k < 2 by omega, show 10 + k - 2 = 8 + k by omega]

theorem extractLsb'_ushiftRight_sixteen (p : Word) : (p >>> 16).extractLsb' 0 10 = p.extractLsb' 16 10 := by
  refine BitVec.eq_of_getLsbD_eq fun k hk => ?_
  simp [hk]

/-- R110, bit by bit. -/
theorem expand_eq_append (p : Word) :
    expand p =
      (p.extractLsb' 0 2 ++ p.extractLsb' 24 8 ++ p.extractLsb' 16 10, p.extractLsb' 8 10 ++ p.extractLsb' 0 10) := by
  simp only [expand, setWidth_or_masks, extractLsb'_rotateRight_fourteen, extractLsb'_shiftLeft_two,
    extractLsb'_ushiftRight_sixteen]

/-- A field that lies inside the word is complemented with it. -/
theorem extractLsb'_not_of_le {w start len : Nat} (x : BitVec w) (h : start + len ≤ w) :
    (~~~x).extractLsb' start len = ~~~x.extractLsb' start len := by
  refine BitVec.eq_of_getLsbD_eq fun k hk => ?_
  simp [hk, show start + k < w by omega]

/-- Every bit of the two lanes is a bit of the input, so the expansion complements with it. -/
theorem expand_not (p : Word) : expand (~~~p) = (~~~(expand p).1, ~~~(expand p).2) := by
  rw [expand_eq_append, expand_eq_append, BitVec.not_append, BitVec.not_append, BitVec.not_append]
  simp [extractLsb'_not_of_le]

/-! ## Keyed mixing (R111) -/

/-- The selector of R111 on one bit. -/
theorem and_xor_xor_eq_ite (sel a b : Bool) : ((sel && (a ^^ b)) ^^ a) = if sel then b else a := by
  cases sel
  case false => simp
  case true => rw [Bool.true_and, Bool.xor_comm a b, Bool.xor_assoc, Bool.xor_self, Bool.xor_false, if_pos rfl]

theorem getLsbD_mix_fst (tl tr : Lane) (sk : Subkey) (k : Nat) :
    (mix tl tr sk).1.getLsbD k = ((if sk.l2.getLsbD k then tr.getLsbD k else tl.getLsbD k) ^^ sk.l0.getLsbD k) := by
  simp only [mix, BitVec.getLsbD_xor, BitVec.getLsbD_and, and_xor_xor_eq_ite]

theorem getLsbD_mix_snd (tl tr : Lane) (sk : Subkey) (k : Nat) :
    (mix tl tr sk).2.getLsbD k = ((if sk.l2.getLsbD k then tl.getLsbD k else tr.getLsbD k) ^^ sk.l1.getLsbD k) := by
  simp only [mix, BitVec.getLsbD_xor, BitVec.getLsbD_and, Bool.xor_comm (tl.getLsbD k), and_xor_xor_eq_ite]

theorem not_xor_not {w : Nat} (x y : BitVec w) : ~~~x ^^^ ~~~y = x ^^^ y := by
  rw [← BitVec.not_xor_left, ← BitVec.not_xor_right, BitVec.not_not]

/-- R114 (e): the selected bits are the same, and the complement of a lane meets that of its subkey. -/
theorem mix_not (tl tr l0 l1 l2 : Lane) :
    mix (~~~tl) (~~~tr) { l0 := ~~~l0, l1 := ~~~l1, l2 := l2 } = mix tl tr { l0 := l0, l1 := l1, l2 := l2 } := by
  simp only [mix, BitVec.xor_assoc, not_xor_not]

/-! ## Lookup (R112) -/

/-- With the tables made, the lookup is the OR of four entries of R86. -/
theorem lookup_of_read_eq {T : TableSet} (hread : ∀ t i, T.read t i = .ok (sboxEntry t i)) (al ar : Lane) :
    lookup T al ar =
      .ok (sboxEntry 0 (al.extractLsb' 10 10) ||| sboxEntry 1 (al.extractLsb' 0 10) |||
        sboxEntry 2 (ar.extractLsb' 10 10) ||| sboxEntry 3 (ar.extractLsb' 0 10)) := by
  simp only [lookup, hread]
  rfl

/-! ## The round (R113) and its command (R115) -/

theorem roundF_not (T : TableSet) (p : Word) (s0 s1 s2 : Lane) :
    roundF T (~~~p) { l0 := ~~~s0, l1 := ~~~s1, l2 := s2 } = roundF T p { l0 := s0, l1 := s1, l2 := s2 } := by
  simp only [roundF, expand_not, mix_not]

/-- ROUNDF ends with the value of the round function where it has one. -/
theorem exec_roundf_of_eq_ok {s : State} {p : Word} {sk0 sk1 sk2 : Lane} {v : Word}
    (hv : roundF (ensureSbox s.tables) p { l0 := sk0, l1 := sk1, l2 := sk2 } = .ok v) :
    exec (.roundf p sk0 sk1 sk2) s = .next (s.ensureTables.answer (0x00 :: bytes32 v)) := by
  simp only [exec, execRoundf, ensureTables_tables, hv]
  rfl

/-! ## The obligations -/

/-- Settles O42. -/
theorem expandBitByBit : Obligations.ExpandBitByBit := by
  unfold Obligations.ExpandBitByBit
  exact expand_eq_append

/-- Settles O43, one bit at a time. -/
theorem laneTwoSelects : Obligations.LaneTwoSelects := by
  unfold Obligations.LaneTwoSelects
  exact fun tl tr sk k _ => ⟨getLsbD_mix_fst tl tr sk k, getLsbD_mix_snd tl tr sk k⟩

/-- Settles O44: the complements cancel in the mixing, before any table is read. -/
theorem roundIgnoresComplement : Obligations.RoundIgnoresComplement := by
  unfold Obligations.RoundIgnoresComplement
  exact roundF_not

/-- Settles O45: the tables read as R86 once they are valid, and the two lanes are those of R110 and R111. -/
theorem roundfOrsFourEntries : Obligations.RoundfOrsFourEntries := by
  unfold Obligations.RoundfOrsFourEntries
  intro p sk0 sk1 sk2 s h tl tr al ar
  have hread := h.tables.ensureSbox.read_eq (ensureSbox_valid _)
  have hexpand : expand p = (tl, tr) := expand_eq_append p
  refine exec_roundf_of_eq_ok ?_
  rw [roundF, hexpand]
  exact lookup_of_read_eq hread al ar

end Sys2Proof.Machine

/-!
The block engine (44_block_engine.md rules R118 to R124). Each step of its proof is an equivalence that reads the same
from both ends: a round pair and the loops say the same of an input and its output as their reverses say of the two
changed about, so that encryption takes `x` to `y` exactly when decryption takes `y` to `x`. O46 to O49.
-/

namespace Sys2Proof.Machine

open Host

/-! ## Halves and blocks (R118, R120) -/

theorem pack_unpack (l r : Word) : pack (unpack l r) = (r, l) :=
  Prod.ext (join32_bytes32 r) (join32_bytes32 l)

theorem unpack_pack {x : List Byte} (hx : x.length = 8) : unpack (pack x).2 (pack x).1 = x := by
  match x, hx with
  | [a3, a2, a1, a0, b3, b2, b1, b0], _ =>
    calc
      bytes32 (join32 a3 a2 a1 a0) ++ bytes32 (join32 b3 b2 b1 b0) = [a3, a2, a1, a0] ++ [b3, b2, b1, b0] := by
        rw [bytes32_join32, bytes32_join32]
      _ = [a3, a2, a1, a0, b3, b2, b1, b0] := rfl

theorem length_unpack (l r : Word) : (unpack l r).length = 8 := rfl

/-- Packing a block undoes the unpacking that made it, but for the exchange of the halves. -/
theorem unpack_eq_iff {y : List Byte} (hy : y.length = 8) (lr : Word × Word) :
    unpack lr.1 lr.2 = y ↔ lr = (pack y).swap := by
  constructor
  · rintro rfl
    rw [pack_unpack, Prod.swap_prod_mk]
  · rintro rfl
    exact unpack_pack hy

/-! ## Computations that meet a fault or give a value -/

theorem fault_bind_eq_ok_iff {α β : Type} {x : Except Fault α} {f : α → Except Fault β} {b : β} :
    x >>= f = .ok b ↔ ∃ a, x = .ok a ∧ f a = .ok b := by
  cases x with
  | error e => exact ⟨nofun, fun ⟨_, hx, _⟩ => nomatch hx⟩
  | ok a => exact ⟨fun h => ⟨a, rfl, h⟩, fun ⟨_, hx, h⟩ => by cases hx; exact h⟩

section
variable {T : TableSet} {sched : List Subkey} {rounds : Nat}

/-! ## The loops (R119, R121) -/

/-- The round function gives `v` on `p` with entry `i` of the schedule. -/
def RoundGives (T : TableSet) (sched : List Subkey) (i : Nat) (p v : Word) : Prop :=
  ∃ sk, readSched sched i = .ok sk ∧ roundF T p sk = .ok v

/-- A pass of a loop: each half changes by the round function of the other, the first of the old one and the second of
the new one. -/
theorem roundPair_eq_ok_iff {i j : Nat} {lr lr' : Word × Word} :
    roundPair T sched i j lr = .ok lr' ↔
      RoundGives T sched i lr.2 (lr.1 ^^^ lr'.1) ∧ RoundGives T sched j lr'.1 (lr.2 ^^^ lr'.2) := by
  obtain ⟨l, r⟩ := lr
  obtain ⟨l', r'⟩ := lr'
  simp only [roundPair, fault_bind_eq_ok_iff]
  constructor
  case mp =>
    rintro ⟨ski, hi, fr, hfr, skj, hj, fl, hfl, h⟩
    cases h
    exact ⟨⟨ski, hi, by rwa [xor_cancel_left]⟩, ⟨skj, hj, by rwa [xor_cancel_left]⟩⟩
  case mpr =>
    rintro ⟨⟨ski, hi, hfr⟩, ⟨skj, hj, hfl⟩⟩
    exact ⟨ski, hi, l ^^^ l', hfr, skj, hj, r ^^^ r', by rwa [xor_cancel_left],
      by rw [xor_cancel_left, xor_cancel_left]; rfl⟩

/-- A pass is undone by the pass with the entries in the other order, the halves having changed places. -/
theorem roundPair_swap {i j : Nat} {lr lr' : Word × Word} :
    roundPair T sched i j lr = .ok lr' ↔ roundPair T sched j i lr'.swap = .ok lr.swap := by
  rw [roundPair_eq_ok_iff, roundPair_eq_ok_iff, and_comm, Prod.fst_swap, Prod.snd_swap, Prod.fst_swap, Prod.snd_swap,
    BitVec.xor_comm lr.1, BitVec.xor_comm lr.2]

/-- The encryption loop from its end: its last pass uses the two entries that the decryption loop begins with. -/
theorem encryptFrom_succ_last (n i : Nat) (lr : Word × Word) :
    encryptFrom T sched (n + 1) i lr =
      encryptFrom T sched n i lr >>= roundPair T sched (i + 2 * n) (i + 2 * n + 1) := by
  induction n generalizing i lr with
  | zero => exact bind_pure (roundPair T sched i (i + 1) lr)
  | succ n ih =>
    have hindex : i + 2 + 2 * n = i + 2 * (n + 1) := by omega
    calc
      encryptFrom T sched (n + 2) i lr
          = roundPair T sched i (i + 1) lr >>= encryptFrom T sched (n + 1) (i + 2) := rfl
      _ = (roundPair T sched i (i + 1) lr >>= encryptFrom T sched n (i + 2)) >>=
            roundPair T sched (i + 2 * (n + 1)) (i + 2 * (n + 1) + 1) := by
        rw [bind_assoc, funext (ih (i + 2)), hindex]

/-- R122 for the loops: what the one makes of the halves, the other takes back, the halves having changed places. -/
theorem encryptFrom_eq_ok_iff_decryptFrom {n : Nat} {lr lr' : Word × Word} :
    encryptFrom T sched n 0 lr = .ok lr' ↔ decryptFrom T sched n lr'.swap = .ok lr.swap := by
  induction n generalizing lr' with
  | zero => simp [encryptFrom, decryptFrom, eq_comm]
  | succ n ih =>
    rw [encryptFrom_succ_last, decryptFrom, fault_bind_eq_ok_iff, fault_bind_eq_ok_iff, Nat.zero_add,
      Prod.swap_surjective.exists]
    refine exists_congr fun mid => ?_
    rw [ih, Prod.swap_swap, roundPair_swap, Prod.swap_swap, and_comm]

/-! ## Blocks (R119, R121, R122) -/

/-- What `encrypt_block` and `decrypt_block` make of the halves that their loop ends with. -/
theorem unpack_bind_eq_ok_iff {halves : Except Fault (Word × Word)} {y : List Byte} (hy : y.length = 8) :
    (do let lr ← halves; return unpack lr.1 lr.2) = .ok y ↔ halves = .ok (pack y).swap := by
  cases halves with
  | error e => exact ⟨nofun, nofun⟩
  | ok lr =>
    show Except.ok (unpack lr.1 lr.2) = .ok y ↔ Except.ok lr = .ok (pack y).swap
    rw [Except.ok.injEq, Except.ok.injEq]
    exact unpack_eq_iff hy lr

theorem length_of_unpack_bind_eq_ok {halves : Except Fault (Word × Word)} {y : List Byte}
    (h : (do let lr ← halves; return unpack lr.1 lr.2) = .ok y) : y.length = 8 := by
  obtain ⟨lr, -, hy⟩ := fault_bind_eq_ok_iff.1 h
  cases hy
  exact length_unpack ..

theorem encryptBlock_eq_ok_iff {x y : List Byte} (hy : y.length = 8) :
    encryptBlock T sched rounds x = .ok y ↔ encryptFrom T sched (rounds / 2) 0 (pack x) = .ok (pack y).swap :=
  unpack_bind_eq_ok_iff hy

theorem decryptBlock_eq_ok_iff {x y : List Byte} (hy : y.length = 8) :
    decryptBlock T sched rounds x = .ok y ↔ decryptFrom T sched (rounds / 2) (pack x) = .ok (pack y).swap :=
  unpack_bind_eq_ok_iff hy

/-- R122: encryption takes one block to another exactly when decryption takes the other to the one. -/
theorem encryptBlock_eq_ok_iff_decryptBlock {x y : List Byte} (hx : x.length = 8) (hy : y.length = 8) :
    encryptBlock T sched rounds x = .ok y ↔ decryptBlock T sched rounds y = .ok x := by
  rw [encryptBlock_eq_ok_iff hy, decryptBlock_eq_ok_iff hx, encryptFrom_eq_ok_iff_decryptFrom, Prod.swap_swap]

variable (hT : T.Readable) (hsched : rounds ≤ sched.length)

include hT hsched

/-- Every block is encrypted, and decryption takes it back. -/
theorem encryptBlock_undone {x : List Byte} (hx : x.length = 8) :
    ∃ y, y.length = 8 ∧ encryptBlock T sched rounds x = .ok y ∧ decryptBlock T sched rounds y = .ok x := by
  obtain ⟨y, henc⟩ := hasValue_encryptBlock hT hsched x
  have hy := length_of_unpack_bind_eq_ok henc
  exact ⟨y, hy, henc, (encryptBlock_eq_ok_iff_decryptBlock hx hy).1 henc⟩

/-- Every block is decrypted, and encryption takes it back. -/
theorem decryptBlock_undone {x : List Byte} (hx : x.length = 8) :
    ∃ z, z.length = 8 ∧ decryptBlock T sched rounds x = .ok z ∧ encryptBlock T sched rounds z = .ok x := by
  obtain ⟨z, hdec⟩ := hasValue_decryptBlock hT hsched x
  have hz := length_of_unpack_bind_eq_ok hdec
  exact ⟨z, hz, hdec, (encryptBlock_eq_ok_iff_decryptBlock hz hx).2 hdec⟩

end

/-! ## The commands (R123, R124) -/

section
variable {s : State} {ctx : Byte} {c : Context} {data y : List Byte}

theorem tables_of_blockState_eq {u : State} (heq : u.blockState = s.blockState) : u.tables = s.tables :=
  congrArg (fun parts => parts.2.1) heq

/-- Being keyed is a fact of the block's own state. -/
theorem State.Keyed.of_blockState_eq {u : State} (h : s.Keyed ctx c) (heq : u.blockState = s.blockState) :
    u.Keyed ctx c := by
  have hctxs : u.ctxs = s.ctxs := congrArg (fun parts => parts.2.2) heq
  rw [State.Keyed, hctxs]
  exact h

/-- A command on one block whose checks all pass ends with the block that was computed: a legal `MAXBUF` lets every
block in. -/
theorem blockCommand_of_keyed {f : Context → Except Fault (List Byte)} (hlegal : s.params.Legal)
    (hkeyed : s.Keyed ctx c) (hlen : data.length = 8) (hv : f c = .ok y) :
    (withContext s ctx fun c => withBytes s data <| withKey s c <| withBlock s data <|
      deliver s ((f c).map .block)) = .next (s.answer (0x00 :: y)) := by
  obtain ⟨hget, hkey⟩ := hkeyed
  obtain ⟨-, hmin, -⟩ := hlegal
  have hfit : bytesFit s.limits data = true := bytesFit_iff.2 (hlen.trans_le hmin)
  rw [withContext_of_some hget, withBytes_of_fit hfit, withKey_of_valid hkey, withBlock_of_eight hlen, hv]
  rfl

theorem exec_enc_of_eq_ok (hlegal : s.params.Legal) (hkeyed : s.Keyed ctx c) (hlen : data.length = 8)
    (hv : encryptBlock s.tables c.sched c.rounds.toNat data = .ok y) :
    exec (.enc ctx data) s = .next (s.answer (0x00 :: y)) :=
  blockCommand_of_keyed (f := fun c => encryptBlock s.tables c.sched c.rounds.toNat data) hlegal hkeyed hlen hv

theorem exec_dec_of_eq_ok (hlegal : s.params.Legal) (hkeyed : s.Keyed ctx c) (hlen : data.length = 8)
    (hv : decryptBlock s.tables c.sched c.rounds.toNat data = .ok y) :
    exec (.dec ctx data) s = .next (s.answer (0x00 :: y)) :=
  blockCommand_of_keyed (f := fun c => decryptBlock s.tables c.sched c.rounds.toNat data) hlegal hkeyed hlen hv

end

/-! ## The obligations -/

/-- Settles O46: with tables that can be read both loops have a value, and the equivalence takes each back. -/
theorem decryptionAndEncryptionInvert : Obligations.DecryptionAndEncryptionInvert := by
  unfold Obligations.DecryptionAndEncryptionInvert
  intro T sched rounds x hT _ hsched hx
  exact ⟨encryptBlock_undone hT hsched.ge hx, decryptBlock_undone hT hsched.ge hx⟩

/-- Settles O47. -/
theorem encCompletes : Obligations.EncCompletes := by
  unfold Obligations.EncCompletes
  intro s ctx c data h hkeyed hlen
  obtain ⟨hT, hsched⟩ := h.keyed_readable hkeyed
  obtain ⟨y, hy, henc, -⟩ := encryptBlock_undone hT hsched hlen
  exact ⟨y, henc, hy, exec_enc_of_eq_ok h.legal hkeyed hlen henc⟩

/-- Settles O48. -/
theorem decCompletes : Obligations.DecCompletes := by
  unfold Obligations.DecCompletes
  intro s ctx c data h hkeyed hlen
  obtain ⟨hT, hsched⟩ := h.keyed_readable hkeyed
  obtain ⟨z, hz, hdec, -⟩ := decryptBlock_undone hT hsched hlen
  exact ⟨z, hdec, hz, exec_dec_of_eq_ok h.legal hkeyed hlen hdec⟩

/-- Settles O49: a later state with the same block state has the tables, the schedule and the parameters that the first
command had. -/
theorem decUndoesEnc : Obligations.DecUndoesEnc := by
  unfold Obligations.DecUndoesEnc
  intro s ctx c data h hkeyed hlen
  obtain ⟨hT, hsched⟩ := h.keyed_readable hkeyed
  constructor
  case left =>
    obtain ⟨y, hy, henc, hdec⟩ := encryptBlock_undone hT hsched hlen
    refine ⟨y, exec_enc_of_eq_ok h.legal hkeyed hlen henc, fun u hu => ?_⟩
    rw [← tables_of_blockState_eq hu] at hdec
    exact exec_dec_of_eq_ok (h.of_blockState_eq hu).legal (hkeyed.of_blockState_eq hu) hy hdec
  case right =>
    obtain ⟨z, hz, hdec, henc⟩ := decryptBlock_undone hT hsched hlen
    refine ⟨z, exec_dec_of_eq_ok h.legal hkeyed hlen hdec, fun u hu => ?_⟩
    rw [← tables_of_blockState_eq hu] at henc
    exact exec_enc_of_eq_ok (h.of_blockState_eq hu).legal (hkeyed.of_blockState_eq hu) hz henc

end Sys2Proof.Machine

/-!
The buffer helper (45_buffer_helper.md rules R130 to R133). `DecryptsRange` follows the loop of R130: it holds of a
remainder alone, and of a decrypted chunk put before what it holds of from the next chunk on. O50 to O52.
-/

namespace Sys2Proof.Machine

/-! ## Slices (R8) -/

theorem length_slice {buf : List Byte} {i j : Nat} (h : j ≤ buf.length) : (slice buf i j).length = j - i := by
  rw [slice, List.length_take, List.length_drop]
  omega

theorem slice_append_first {chunk : List Byte} {n : Nat} (h : chunk.length = n) (tail : List Byte) :
    slice (chunk ++ tail) 0 n = chunk := List.take_left' h

/-- Behind a first part the slices are those of the rest. -/
theorem slice_append_add {chunk : List Byte} {n : Nat} (h : chunk.length = n) (tail : List Byte) (i j : Nat) :
    slice (chunk ++ tail) (n + i) (n + j) = slice tail i j := by
  subst h
  rw [slice, slice, List.drop_length_add_append, Nat.add_sub_add_left]

/-! ## The loop (R130) -/

section
variable {s : State} {c : Context} {buf : List Byte} {start stop : Nat}

/-- A range shorter than a chunk passes unchanged (R131). -/
theorem DecryptsRange.remainder (hshort : stop - start < 8) (hstop : stop ≤ buf.length) :
    DecryptsRange s c buf start stop (slice buf start stop) := by
  have hnone : (stop - start) / 8 = 0 := Nat.div_eq_of_lt hshort
  rw [DecryptsRange, hnone]
  exact ⟨length_slice hstop, nofun, rfl⟩

/-- A full chunk is decrypted alone and goes before what is made of the range behind it. -/
theorem DecryptsRange.chunk_append {chunk out : List Byte} (hfull : start + 8 ≤ stop)
    (hchunk : decryptBlock s.tables c.sched c.rounds.toNat (slice buf start (start + 8)) = .ok chunk)
    (hrest : DecryptsRange s c buf (start + 8) stop out) : DecryptsRange s c buf start stop (chunk ++ out) := by
  obtain ⟨hlen, hchunks, hremainder⟩ := hrest
  have height : chunk.length = 8 := length_of_unpack_bind_eq_ok hchunk
  have hcount : (stop - start) / 8 = (stop - (start + 8)) / 8 + 1 := by omega
  rw [DecryptsRange, hcount]
  refine ⟨?length, fun k hk => ?chunks, ?remainder⟩
  case length =>
    rw [List.length_append, height, hlen]
    omega
  case chunks =>
    cases k with
    | zero => exact (slice_append_first height out).symm ▸ hchunk
    | succ k =>
      rw [show start + 8 * (k + 1) = start + 8 + 8 * k by omega, show 8 * (k + 1) = 8 + 8 * k by omega, Nat.add_assoc 8,
        slice_append_add height]
      exact hchunks k (by omega)
  case remainder =>
    rw [show 8 * ((stop - (start + 8)) / 8 + 1) = chunk.length + 8 * ((stop - (start + 8)) / 8) by omega,
      List.drop_length_add_append, hremainder, height, Nat.add_assoc start]

/-- The loop appends to what it has what is to be made of the range that it has still to go through. -/
theorem decryptsRange_of_decryptChunks {n : Nat} {acc out : List Byte} (hstop : stop ≤ buf.length)
    (hn : (stop - start) / 8 = n)
    (h : decryptChunks s.tables c.sched c.rounds.toNat buf stop n start acc = .ok out) :
    ∃ rest, out = acc ++ rest ∧ DecryptsRange s c buf start stop rest := by
  induction n generalizing start acc with
  | zero =>
    cases h
    exact ⟨slice buf start stop, rfl, .remainder (by omega) hstop⟩
  | succ n ih =>
    obtain ⟨chunk, hchunk, h⟩ := fault_bind_eq_ok_iff.1 h
    obtain ⟨rest, rfl, hrest⟩ := ih (by omega) h
    exact ⟨chunk ++ rest, List.append_assoc .., hrest.chunk_append (by omega) hchunk⟩

/-- R130, R131: under a keyed context of the invariant every range inside the buffer is decrypted. -/
theorem BlockInv.decryptRange_decryptsRange {ctx : Byte} (h : BlockInv s) (hkeyed : s.Keyed ctx c) (start : Nat)
    (hstop : stop ≤ buf.length) :
    ∃ out, decryptRange s.tables c.sched c.rounds.toNat buf start stop = .ok out ∧
      DecryptsRange s c buf start stop out := by
  obtain ⟨hT, hsched⟩ := h.keyed_readable hkeyed
  obtain ⟨out, hout⟩ := hasValue_decryptRange hT hsched buf start stop
  obtain ⟨rest, heq, hrest⟩ := decryptsRange_of_decryptChunks hstop rfl hout
  rw [List.nil_append] at heq
  exact ⟨out, hout, heq ▸ hrest⟩

end

/-! ## The commands (R132, R133) -/

theorem rangeOk_iff {start stop : Int} {len : Nat} :
    rangeOk start stop len = true ↔ start ≤ stop ∧ 0 ≤ start ∧ stop ≤ (len : Int) := decide_eq_true_iff

/-- A word that is not negative is its unsigned value. -/
theorem toInt_eq_toNat_of_nonneg {w : Word} (h : 0 ≤ w.toInt) : w.toInt = (w.toNat : Int) := by
  rw [BitVec.toInt_eq_toNat_cond] at h ⊢
  split at h <;> omega

/-- A length that a legal `MAXBUF` lets in is a word that is not negative. -/
theorem toNat_ofNat_length {s : State} {buf : List Byte} (hlegal : s.params.Legal)
    (hlen : buf.length ≤ s.params.maxBuf) : (BitVec.ofNat 32 buf.length).toNat = buf.length := by
  obtain ⟨-, -, hmax⟩ := hlegal
  rw [BitVec.toNat_ofNat]
  omega

theorem rangeOk_whole {s : State} {buf : List Byte} (hlegal : s.params.Legal) (hlen : buf.length ≤ s.params.maxBuf) :
    rangeOk (0 : Word).toInt (BitVec.ofNat 32 buf.length).toInt buf.length = true := by
  have hnat := toNat_ofNat_length hlegal hlen
  obtain ⟨-, -, hmax⟩ := hlegal
  have hint : (BitVec.ofNat 32 buf.length).toInt = buf.length := by
    rw [BitVec.toInt_eq_toNat_cond, hnat]
    omega
  have hzero : (0 : Word).toInt = 0 := rfl
  rw [rangeOk_iff, hint, hzero]
  omega

section
variable {s : State} {ctx : Byte} {c : Context} {buf : List Byte}

/-- A buffer that does not fit is answered alike, whatever would have followed. -/
theorem withBytes_congr {k l : Out} (h : buf.length ≤ s.params.maxBuf → k = l) :
    withBytes s buf k = withBytes s buf l := by
  unfold withBytes
  split
  next hfit => exact h (bytesFit_iff.1 hfit)
  next => rfl

/-- The guards of the buffer commands let a buffer within `MAXBUF` on a keyed context through. -/
theorem keyedGuards_of_keyed {k : Context → Out} (hkeyed : s.Keyed ctx c) (hlen : buf.length ≤ s.params.maxBuf) :
    (withContext s ctx fun c => withBytes s buf <| withKey s c (k c)) = k c := by
  obtain ⟨hget, hkey⟩ := hkeyed
  rw [withContext_of_some hget, withBytes_of_fit (bytesFit_iff.2 hlen), withKey_of_valid hkey]

theorem exec_decall_of_keyed (hkeyed : s.Keyed ctx c) (hlen : buf.length ≤ s.params.maxBuf) :
    exec (.decall ctx buf) s =
      deliver s ((decryptRange s.tables c.sched c.rounds.toNat buf 0 buf.length).map .bytes) :=
  keyedGuards_of_keyed hkeyed hlen

theorem exec_decrng_of_keyed {start stop : Word} (hkeyed : s.Keyed ctx c) (hlen : buf.length ≤ s.params.maxBuf)
    (hrange : rangeOk start.toInt stop.toInt buf.length = true) :
    exec (.decrng ctx start stop buf) s =
      deliver s ((decryptRange s.tables c.sched c.rounds.toNat buf start.toNat stop.toNat).map .bytes) :=
  (keyedGuards_of_keyed hkeyed hlen).trans (if_pos hrange)

end

/-! ## The obligations -/

/-- Settles O50: a range inside the buffer passes the checks, and its bounds are their unsigned values. -/
theorem decrngDecryptsChunksAndPassesTheRest : Obligations.DecrngDecryptsChunksAndPassesTheRest := by
  unfold Obligations.DecrngDecryptsChunksAndPassesTheRest
  intro s ctx c start stop buf h hkeyed hlen hstart horder hstop
  have hinside : stop.toNat ≤ buf.length := by
    rw [toInt_eq_toNat_of_nonneg (hstart.trans horder)] at hstop
    exact Int.ofNat_le.1 hstop
  obtain ⟨out, hout, hdecrypts⟩ := h.decryptRange_decryptsRange hkeyed start.toNat hinside
  refine ⟨out, hdecrypts, ?_⟩
  rw [exec_decrng_of_keyed hkeyed hlen (rangeOk_iff.2 ⟨horder, hstart, hstop⟩), hout]
  rfl

/-- Settles O51. -/
theorem decallDecryptsTheWholeBuffer : Obligations.DecallDecryptsTheWholeBuffer := by
  unfold Obligations.DecallDecryptsTheWholeBuffer
  intro s ctx c buf h hkeyed hlen
  obtain ⟨out, hout, hdecrypts⟩ := h.decryptRange_decryptsRange hkeyed 0 le_rfl
  refine ⟨out, hdecrypts, ?_⟩
  rw [exec_decall_of_keyed hkeyed hlen, hout]
  rfl

/-- Settles O52: the guards are the same, and behind them the whole buffer is a range inside it. -/
theorem decallIsDecrngOfTheWholeBuffer : Obligations.DecallIsDecrngOfTheWholeBuffer := by
  unfold Obligations.DecallIsDecrngOfTheWholeBuffer
  intro s ctx buf hlegal
  refine congrArg (withContext s ctx) (funext fun c => withBytes_congr fun hlen => congrArg (withKey s c) ?_)
  rw [if_pos (rangeOk_whole hlegal hlen), toNat_ofNat_length hlegal hlen]
  rfl

end Sys2Proof.Machine

/-!
STAT where its context exists (46_system.md rule R140): O53.
-/

namespace Sys2Proof.Machine

/-- R56: the response to STAT, element by element, behind the status `OK`. -/
theorem okBytes_status (r : StatusRecord) :
    okBytes (.status r) =
      [0x00, flagByte r.sboxValid] ++ bytes32 r.sboxBuilds ++ [flagByte r.keyValid] ++ bytes32 r.level ++
        bytes32 r.size ++ bytes32 r.rounds := rfl

/-- R140: on a context that exists, keyed or not, STAT answers the record and does nothing else. -/
theorem exec_stat_of_some {s : State} {ctx : Byte} {c : Context} (hget : s.ctxs[ctx.toNat]? = some c) :
    exec (.stat ctx) s = .next (s.answer (okBytes (.status (statusOf s.tables c)))) :=
  withContext_of_some hget

/-- Settles O53: the record's fields are the six elements, laid out as R56 has them. -/
theorem statReportsTheSixElements : Obligations.StatReportsTheSixElements := by
  unfold Obligations.StatReportsTheSixElements
  intro s ctx c hget
  rw [exec_stat_of_some hget, okBytes_status]
  rfl

end Sys2Proof.Machine

/-!
Obligations on errors and on the idle block (60_exceptions.md rules R150 to R158, R166): O8, O20 to O26. The checks of
each command stand in the order of R158, so its outcome is the one that `reported` names; when a single error is answered
is then read off `reported`.
-/

namespace Sys2Proof.Machine

open Host

/-! ## Which error is reported -/

/-- An error that is reported applies (R158). -/
theorem applies_of_reported {s : State} {i : Instr} {e : Error} (h : reported s i = some e) : applies s i e = true :=
  List.find?_some h

/-- `IllegalCommand` comes before every other error (R158). -/
theorem reported_of_malformed {s : State} {i : Instr} (h : i.wellFormed s.limits = false) :
    reported s i = some .illegalCommand := by
  simp [reported, priority, applies, h]

/-- A well-formed command reports the first of the errors behind `IllegalCommand` (R158). -/
theorem reported_of_wellFormed {s : State} {i : Instr} (h : i.wellFormed s.limits = true) :
    reported s i = priority.tail.find? (applies s i) := by
  have hlegal : applies s i .illegalCommand = false := by simp [applies, h]
  simp [reported, priority, hlegal]

/-- R154. -/
theorem rangeOk_eq_false_iff {start stop : Int} {len : Nat} :
    rangeOk start stop len = false ↔ stop < start ∨ start < 0 ∨ (len : Int) < stop := by
  rw [← Bool.not_eq_true, rangeOk_iff]
  omega

section
variable {s : State} {ctx : Byte} {c : Context} {level start stop : Word} {data : List Byte}

/-- R104: the level before the length. -/
theorem reported_keyset (hwf : (Instr.keyset ctx level data).wellFormed s.limits = true) :
    reported s (.keyset ctx level data) =
      if levelSupported s.params level.toInt then
        if data.length = 8 * (variant level.toInt).1 then none else some .invalidKeyLength
      else some .unsupportedLevel := by
  rw [reported_of_wellFormed hwf]
  by_cases hlevel : levelSupported s.params level.toInt = true
  · by_cases hlen : data.length = 8 * (variant level.toInt).1 <;> simp [priority, applies, hlevel, hlen]
  · simp [priority, applies, hlevel]

variable (hget : s.ctxs[ctx.toNat]? = some c)
include hget

/-- R123, R124: ENC and DEC make the same checks, the key before the length. -/
theorem reported_blockCommand {i : Instr} (hi : i = .enc ctx data ∨ i = .dec ctx data)
    (hwf : i.wellFormed s.limits = true) :
    reported s i =
      if c.keyValid then if data.length = 8 then none else some .invalidBlockLength else some .noKey := by
  rw [reported_of_wellFormed hwf]
  by_cases hkey : c.keyValid = true
  · by_cases hlen : data.length = 8 <;> rcases hi with rfl | rfl <;> simp [priority, applies, hget, hkey, hlen]
  · rcases hi with rfl | rfl <;> simp [priority, applies, hget, hkey]

/-- R132: the key before the range. -/
theorem reported_decrng (hwf : (Instr.decrng ctx start stop data).wellFormed s.limits = true) :
    reported s (.decrng ctx start stop data) =
      if c.keyValid then if rangeOk start.toInt stop.toInt data.length then none else some .invalidRange
      else some .noKey := by
  rw [reported_of_wellFormed hwf]
  by_cases hkey : c.keyValid = true
  · by_cases hrange : rangeOk start.toInt stop.toInt data.length = true <;>
      simp [priority, applies, hget, hkey, hrange, ← rangeOk_eq_false_iff]
  · simp [priority, applies, hget, hkey]

/-- R133: the key alone. -/
theorem reported_decall (hwf : (Instr.decall ctx data).wellFormed s.limits = true) :
    reported s (.decall ctx data) = if c.keyValid then none else some .noKey := by
  rw [reported_of_wellFormed hwf]
  by_cases hkey : c.keyValid = true <;> simp [priority, applies, hget, hkey]

end

/-! ## Outcomes that report an error, or none -/

/-- The response added is one of a command that completed (R56). -/
def AnswersOk (s t : State) : Prop :=
  ∃ rest, t.responses = s.responses ++ [{ requester := s.serving, bytes := 0x00 :: rest }]

/-- The outcome of a command that reports the given error: its status byte and nothing else (R153). The outcome of one
that reports none: an answer `OK`, if it ends. -/
def Reports (s : State) (o : Out) : Option Error → Prop
  | some e => o = .next (s.answer [e.code])
  | none => ∀ t, o = .next t → AnswersOk s t

section
variable {s : State} {r : Option Error}

theorem Reports.finish {t : State} (hresponses : t.responses = s.responses) (hserving : t.serving = s.serving)
    (res : Result) : Reports s (.next (t.finish res)) none := by
  rintro _ ⟨⟩
  exact ⟨res.encode, by simp [hresponses, hserving, okBytes]⟩

theorem Reports.deliver {t : State} (hresponses : t.responses = s.responses) (hserving : t.serving = s.serving)
    (v : Except Fault Result) : Reports s (deliver t v) none := by
  cases v with
  | ok res => exact .finish hresponses hserving res
  | error f => nofun

/-- A check before its command: the error is reported where it fails. -/
theorem Reports.check {p : Prop} [Decidable p] {k : Out} {e : Error} (h : p → Reports s k r) :
    Reports s (if p then k else .next (s.raise e)) (if p then r else some e) := by
  split
  next hp => exact h hp
  next => rfl

/-- The checks on the operands of a frame (R55): behind them the command is well-formed and its context is there. -/
theorem Reports.guards {i : Instr} {ctx : Byte} {bs : List Byte} {k : Context → Out}
    (hi : i.wellFormed s.limits = (contextExists s.limits ctx && bytesFit s.limits bs))
    (h : ∀ c, s.ctxs[ctx.toNat]? = some c → i.wellFormed s.limits = true → Reports s (k c) (reported s i)) :
    Reports s (withContext s ctx fun c => withBytes s bs (k c)) (reported s i) := by
  cases hget : s.ctxs[ctx.toNat]? with
  | none =>
    rw [withContext_of_none hget, reported_of_malformed (by simp [hi, not_contextExists_iff.2 hget])]
    rfl
  | some c =>
    have hctx : contextExists s.limits ctx = true := contextExists_iff.2 ⟨c, hget⟩
    rw [withContext_of_some hget, withBytes]
    split
    next hfit => exact h c hget (by simp [hi, hctx, hfit])
    next hfit =>
      rw [reported_of_malformed (by simp [hi, hfit])]
      rfl

/-- R158: a command answers the error that it reports, and `OK` where it ends without one. -/
theorem exec_reports (i : Instr) (s : State) : Reports s (exec i s) (reported s i) := by
  cases i with
  | gfmul a b m => exact .finish rfl rfl _
  | gfexp7 b m => exact .finish rfl rfl _
  | perm32 x => exact .finish rfl rfl _
  | sbinit => exact .finish rfl rfl _
  | sbrd t n => exact .deliver rfl rfl _
  | keyset ctx level key =>
    refine .guards rfl fun c _ hwf => ?_
    rw [reported_keyset hwf]
    exact .check fun _ => .check fun _ => .finish rfl rfl _
  | roundf p sk0 sk1 sk2 => exact .deliver rfl rfl _
  | enc ctx data =>
    refine .guards rfl fun c hget hwf => ?_
    rw [reported_blockCommand hget (.inl rfl) hwf]
    exact .check fun _ => .check fun _ => .deliver rfl rfl _
  | dec ctx data =>
    refine .guards rfl fun c hget hwf => ?_
    rw [reported_blockCommand hget (.inr rfl) hwf]
    exact .check fun _ => .check fun _ => .deliver rfl rfl _
  | decrng ctx start stop buf =>
    refine .guards rfl fun c hget hwf => ?_
    rw [reported_decrng hget hwf]
    exact .check fun _ => .check fun _ => .deliver rfl rfl _
  | decall ctx buf =>
    refine .guards rfl fun c hget hwf => ?_
    rw [reported_decall hget hwf]
    exact .check fun _ => .deliver rfl rfl _
  | stat ctx =>
    cases hget : s.ctxs[ctx.toNat]? with
    | none =>
      rw [reported_of_malformed (i := .stat ctx) (not_contextExists_iff.2 hget)]
      exact withContext_of_none hget
    | some c =>
      rw [reported_of_wellFormed (i := .stat ctx) (contextExists_iff.2 ⟨c, hget⟩), exec_stat_of_some hget]
      exact .finish rfl rfl _

end

/-! ## When a single error is answered -/

theorem code_inj {e f : Error} : e.code = f.code ↔ e = f := by
  constructor
  · cases e <;> cases f <;> decide
  · rintro rfl; rfl

/-- A command answers an error exactly when it reports it. -/
theorem exec_eq_error_iff {i : Instr} {s : State} (e : Error) :
    exec i s = .next (s.answer [e.code]) ↔ reported s i = some e := by
  have hreports := exec_reports i s
  cases h : reported s i with
  | none =>
    rw [h] at hreports
    simp only [reduceCtorEq, iff_false]
    intro hexec
    obtain ⟨rest, hrest⟩ := hreports _ hexec
    exact code_ne_zero e (status_eq_of_responses_eq hrest)
  | some f =>
    rw [h] at hreports
    rw [hreports]
    simp [code_inj]

/-- Of two checks the first answers exactly where it fails. -/
theorem twoChecks_eq_first_iff {b : Bool} {p : Prop} [Decidable p] {first second : Error} (hne : second ≠ first) :
    (if b then if p then none else some second else some first) = some first ↔ b = false := by
  cases b with
  | false => simp
  | true => by_cases hp : p <;> simp [hp, hne]

/-- Operands that exist and fit make a command well-formed (R55). -/
theorem guardsHold_iff {s : State} {ctx : Byte} {bs : List Byte} :
    (contextExists s.limits ctx && bytesFit s.limits bs) = true ↔ ctx.toNat < s.nctx ∧ bs.length ≤ s.params.maxBuf := by
  rw [Bool.and_eq_true, bytesFit_iff, contextExists, decide_eq_true_iff]
  rfl

theorem lt_nctx_of_getElem?_eq_some {s : State} {ctx : Byte} {c : Context} (hget : s.ctxs[ctx.toNat]? = some c) :
    ctx.toNat < s.nctx := (List.getElem?_eq_some_iff.1 hget).1

theorem variant_size (level : Int) : (variant level).1 = if level < 1 then 1 else level.toNat := by
  unfold variant
  split <;> rfl

/-- R157. -/
theorem levelSupported_eq_false_iff {p : Config.Params} {level : Int} :
    levelSupported p level = false ↔ ∃ n, p.maxLevel = some n ∧ level > (n : Int) := by
  unfold levelSupported
  cases p.maxLevel <;> simp

/-! ## Errors that apply together -/

/-- The errors other than `IllegalCommand` that a command can raise (R151 to R157). -/
def causes : Instr → List Error
  | .keyset _ _ _ => [.unsupportedLevel, .invalidKeyLength]
  | .enc _ _ => [.noKey, .invalidBlockLength]
  | .dec _ _ => [.noKey, .invalidBlockLength]
  | .decrng _ _ _ _ => [.noKey, .invalidRange]
  | .decall _ _ => [.noKey]
  | _ => []

/-- No cause is missing from `causes`. -/
theorem mem_causes_of_applies {s : State} {i : Instr} {e : Error} (h : applies s i e = true)
    (he : e ≠ .illegalCommand) : e ∈ causes i := by
  unfold applies at h
  split at h <;> simp_all [causes]

/-- R158: two errors that one command can raise are one of the pairs that the rule names. -/
theorem coinciding_of_mem_causes (i : Instr) :
    ∀ e ∈ causes i, ∀ f ∈ causes i, e ≠ f → (e, f) ∈ coinciding ∨ (f, e) ∈ coinciding := by
  cases i <;> simp only [causes] <;> decide

/-! ## The obligations -/

/-- Settles O8. -/
theorem idleBlockKeepsItsState : Obligations.IdleBlockKeepsItsState := by
  unfold Obligations.IdleBlockKeepsItsState
  intro s hreset hidle
  simp [step, hreset, accept_eq_none_iff.2 hidle]

/-- Settles O20, by the four things a command can do: only one of them answers a status other than `OK`. -/
theorem failedCommandWritesNothing : Obligations.FailedCommandWritesNothing := by
  unfold Obligations.FailedCommandWritesNothing
  intro i s t b rest hexec hresponses hb
  rcases exec_next hexec with ⟨e, rfl⟩ | ⟨_, rfl, -⟩ | ⟨_, rfl, -⟩ | ⟨_, _, _, -, -, -, -, -, rfl⟩
  · obtain ⟨rfl, rfl⟩ : e.code = b ∧ [] = rest := by simpa using hresponses
    exact ⟨rfl, rfl⟩
  all_goals exact absurd (status_eq_of_responses_eq hresponses).symm hb

/-- Settles O21: the answers are `exec_reports`, and errors that apply together are causes of one command. -/
theorem firstApplicableErrorIsReported : Obligations.FirstApplicableErrorIsReported := by
  unfold Obligations.FirstApplicableErrorIsReported
  intro i s
  refine ⟨fun e => (exec_eq_error_iff e).2, fun hnone => ?ok, fun e f he hf hne => ?pairs⟩
  case ok =>
    have hok := exec_reports i s
    rw [hnone] at hok
    exact hok
  case pairs =>
    by_cases hillegal : e = .illegalCommand ∨ f = .illegalCommand
    · exact hillegal.imp_right .inl
    · obtain ⟨he', hf'⟩ := not_or.1 hillegal
      have hecause := mem_causes_of_applies he he'
      have hfcause := mem_causes_of_applies hf hf'
      exact .inr <| .inr <| coinciding_of_mem_causes i e hecause f hfcause hne

/-- Settles O22. -/
theorem invalidKeyLengthCause : Obligations.InvalidKeyLengthCause := by
  unfold Obligations.InvalidKeyLengthCause
  intro s ctx level key hctx hfit hlevel
  rw [← variant_size]
  refine (exec_eq_error_iff .invalidKeyLength).trans ?_
  rw [reported_keyset (guardsHold_iff.2 ⟨hctx, hfit⟩)]
  simp [hlevel]

/-- Settles O23. -/
theorem invalidBlockLengthCause : Obligations.InvalidBlockLengthCause := by
  unfold Obligations.InvalidBlockLengthCause
  rintro s ctx c data ⟨hget, hkey⟩ hfit
  have hwf := guardsHold_iff.2 ⟨lt_nctx_of_getElem?_eq_some hget, hfit⟩
  refine ⟨(exec_eq_error_iff .invalidBlockLength).trans ?enc, (exec_eq_error_iff .invalidBlockLength).trans ?dec⟩
  case enc => simp [reported_blockCommand hget (.inl rfl) hwf, hkey]
  case dec => simp [reported_blockCommand hget (.inr rfl) hwf, hkey]

/-- Settles O24: what is answered applies, and a range is no cause of DECALL. -/
theorem invalidRangeCause : Obligations.InvalidRangeCause := by
  unfold Obligations.InvalidRangeCause
  intro s ctx start stop buf
  constructor
  case left =>
    rintro c ⟨hget, hkey⟩ hfit
    have hwf := guardsHold_iff.2 ⟨lt_nctx_of_getElem?_eq_some hget, hfit⟩
    refine (exec_eq_error_iff .invalidRange).trans (.trans ?_ rangeOk_eq_false_iff)
    simp [reported_decrng hget hwf, hkey]
  case right =>
    intro hexec
    have happlies := applies_of_reported ((exec_eq_error_iff .invalidRange).1 hexec)
    cases happlies

/-- Settles O25: the key is the first check behind the operands' own. -/
theorem noKeyCause : Obligations.NoKeyCause := by
  unfold Obligations.NoKeyCause
  intro s ctx c start stop data hget hfit
  have hwf := guardsHold_iff.2 ⟨lt_nctx_of_getElem?_eq_some hget, hfit⟩
  refine ⟨(exec_eq_error_iff .noKey).trans ?enc, (exec_eq_error_iff .noKey).trans ?dec,
    (exec_eq_error_iff .noKey).trans ?decrng, (exec_eq_error_iff .noKey).trans ?decall⟩
  case enc => exact reported_blockCommand hget (.inl rfl) hwf ▸ twoChecks_eq_first_iff nofun
  case dec => exact reported_blockCommand hget (.inr rfl) hwf ▸ twoChecks_eq_first_iff nofun
  case decrng => exact reported_decrng hget hwf ▸ twoChecks_eq_first_iff nofun
  case decall => simp [reported_decall hget hwf]

/-- Settles O26: a legal `MAXLEVEL` is at least 1, so the thin variant is below it. -/
theorem unsupportedLevelCause : Obligations.UnsupportedLevelCause := by
  unfold Obligations.UnsupportedLevelCause
  intro s ctx level key hlegal hctx hfit
  have hcause : exec (.keyset ctx level key) s = .next (s.answer [0x06]) ↔
      ∃ n, s.params.maxLevel = some n ∧ level.toInt > (n : Int) := by
    refine (exec_eq_error_iff .unsupportedLevel).trans ?_
    rw [reported_keyset (guardsHold_iff.2 ⟨hctx, hfit⟩), ← levelSupported_eq_false_iff]
    exact twoChecks_eq_first_iff nofun
  refine ⟨hcause, fun hnever hexec => ?_⟩
  obtain ⟨n, hmax, hlevel⟩ := hcause.1 hexec
  obtain ⟨hpos, -⟩ := hlegal
  have hn : 1 ≤ n := hpos n hmax
  rcases hnever with hunbounded | hthin
  · simp [hunbounded] at hmax
  · omega

end Sys2Proof.Machine

/-!
Obligations on reset and on what only reset undoes (00_scope.md rule R5; 10_state.md rules R11, R12;
70_reset_and_hazards.md rule R170): O13, O18. What lasts until reset is one relation between two states, taken through
the operations that a command is made of; `exec_next` and `step_next` then say that there are no others.
-/

namespace Sys2Proof.Machine

open Host

/-! ## The reset event -/

/-- R170: a reset that is asked for comes before every command. -/
theorem step_of_resetAsked {s : State} (h : s.resetAsked = true) : step s = .next s.doReset := if_pos h

/-! ## What lasts until reset -/

/-- Context `k` is there and has its `KEY_VALID` set. -/
def State.KeyedAt (s : State) (k : Nat) : Prop := ∃ c, s.ctxs[k]? = some c ∧ c.keyValid = true

/-- From `s` to `t` nothing happened that takes a reset: the parameters and the number of contexts are the same, tables
that were valid were not written, and no `KEY_VALID` was cleared. -/
structure LastsTo (s t : State) : Prop where
  params : t.params = s.params
  nctx : t.nctx = s.nctx
  tables : s.tables.valid = true → t.tables = s.tables
  keyed : ∀ k, s.KeyedAt k → t.KeyedAt k

theorem LastsTo.of_blockState_eq {s t : State} (heq : t.blockState = s.blockState) : LastsTo s t := by
  obtain ⟨hp, hT, hc⟩ : t.params = s.params ∧ t.tables = s.tables ∧ t.ctxs = s.ctxs := by
    simpa [State.blockState] using heq
  exact
    { params := hp
      nctx := congrArg List.length hc
      tables := fun _ => hT
      keyed := fun k h => by rw [State.KeyedAt, hc]; exact h }

theorem LastsTo.trans {s t u : State} (hst : LastsTo s t) (htu : LastsTo t u) : LastsTo s u where
  params := htu.params.trans hst.params
  nctx := htu.nctx.trans hst.nctx
  tables hvalid := by
    have ht := hst.tables hvalid
    rw [htu.tables (by rw [ht, hvalid]), ht]
  keyed k h := htu.keyed k (hst.keyed k h)

theorem lastsTo_answer (s : State) (bs : List Byte) : LastsTo s (s.answer bs) :=
  .of_blockState_eq (answer_blockState s bs)

/-- R89: the once-guard writes no valid tables. -/
theorem lastsTo_ensureTables (s : State) : LastsTo s s.ensureTables where
  params := rfl
  nctx := rfl
  tables := ensureSbox_of_valid
  keyed _ h := h

/-- A context may be written again, as long as it is left keyed. -/
theorem lastsTo_setContext (s : State) (ctx : Byte) {c : Context} (hkey : c.keyValid = true) :
    LastsTo s (s.setContext ctx c) where
  params := rfl
  nctx := setContext_nctx s ctx c
  tables _ := rfl
  keyed k := by
    rintro ⟨d, hd, hdkey⟩
    by_cases hk : ctx.toNat = k
    case pos =>
      have hlt : ctx.toNat < s.ctxs.length := by rw [hk]; exact (List.getElem?_eq_some_iff.1 hd).1
      exact ⟨c, by rw [setContext_ctxs, ← hk, List.getElem?_set_self hlt], hkey⟩
    case neg => exact ⟨d, by rw [setContext_ctxs, List.getElem?_set_ne hk, hd], hdkey⟩

theorem exec_lastsTo {i : Instr} {s t : State} (he : exec i s = .next t) : LastsTo s t := by
  rcases exec_next he with ⟨e, rfl⟩ | ⟨rest, rfl, -⟩ | ⟨rest, rfl, -⟩ | ⟨ctx, level, key, -, -, -, -, -, rfl⟩
  · exact lastsTo_answer ..
  · exact lastsTo_answer ..
  · exact (lastsTo_ensureTables s).trans (lastsTo_answer ..)
  · have hwritten : LastsTo s.ensureTables (s.ensureTables.setContext ctx (keyedContext level key)) :=
      lastsTo_setContext _ ctx rfl
    exact ((lastsTo_ensureTables s).trans hwritten).trans (lastsTo_answer ..)

theorem step_lastsTo {s t : State} (hreset : s.resetAsked = false) (h : step s = .next t) : LastsTo s t := by
  rcases step_next h with ⟨hasked, -⟩ | ⟨-, -, rfl⟩ | ⟨f, s1, -, ha, hrun⟩
  · rw [hreset] at hasked; cases hasked
  · exact .of_blockState_eq rfl
  · have haccept : LastsTo s s1 := .of_blockState_eq (accept_blockState ha)
    rcases hrun with ⟨i, -, he⟩ | ⟨e, -, rfl⟩
    · exact haccept.trans (exec_lastsTo he)
    · exact haccept.trans (lastsTo_answer ..)

/-- R5: the parameters and the number of contexts outlast reset too (log entry 1). -/
theorem step_keeps_params {s t : State} (h : step s = .next t) : t.params = s.params ∧ t.nctx = s.nctx := by
  cases hreset : s.resetAsked
  case false =>
    have hlasts := step_lastsTo hreset h
    exact ⟨hlasts.params, hlasts.nctx⟩
  case true =>
    rw [step_of_resetAsked hreset] at h
    cases h
    exact ⟨doReset_params s, doReset_nctx s⟩

/-! ## The obligations -/

/-- Settles O18. -/
theorem onlyResetClears : Obligations.OnlyResetClears := by
  unfold Obligations.OnlyResetClears
  intro s t h
  obtain ⟨hparams, hnctx⟩ := step_keeps_params h
  refine ⟨hparams, hnctx, fun hreset => ?_⟩
  have hlasts := step_lastsTo hreset h
  exact ⟨hlasts.tables, fun k c hc hkey => hlasts.keyed k ⟨c, hc, hkey⟩⟩

/-- Settles O13: the reset event is `State.doReset`, which starts from the reset state of the same parameters. -/
theorem resetEventGivesTheResetState : Obligations.ResetEventGivesTheResetState := by
  unfold Obligations.ResetEventGivesTheResetState
  exact fun _ => step_of_resetAsked

end Sys2Proof.Machine
